-- ==== Sys2Proof/Word.lean ====
section
/-! DEFINITION. The widths of the lunet-sub001 codec block (LCB): rules R5, R7 and R9 of spec/00_scope.md. -/

namespace Sys2Proof

/-- A general register, `DIN` and `DOUT`: `XLEN = 64` bits (rule R5). -/
abbrev Word := BitVec 64

/-- A command word: `CWLEN = 32` bits (rule R5). -/
abbrev CmdWord := BitVec 32

/-- A sequence number: `SEQW = 16` bits, arithmetic modulo 65536 (rule R5). -/
abbrev SeqNo := BitVec 16

/-- A byte of a buffer space: 8 bits (rule R50). -/
abbrev Byte := BitVec 8

/-- The bits of a BitVector in index order, index 0 first; its capacity is the length of the list
(rule R21: a list of length `VN[i]`). -/
abbrev Bits := List Bool

end Sys2Proof
end

