-- ==== Sys2Proof/Config.lean ====
section
/-! DEFINITION. The two open parameters of the block (rule R6 of spec/00_scope.md, decision D23, item U7 of
spec/93_implementation_defined.md): a model takes them as arguments. They are carried, unchanged, in `State.cfg`,
so that every statement about all states is a statement about all parameter values (assumption log 1). -/

namespace Sys2Proof

/-- The parameters an implementation fixes (rule R6). -/
structure Config where
  /-- `BUFMAX`: the largest writer capacity and the largest reader length, in bytes. -/
  bufmax : Nat
  /-- `VMAX`: the largest BitVector capacity and the largest AckWindow width, in bits. -/
  vmax : Nat
deriving DecidableEq, Repr

/-- The constraints of rule R6: `1 <= BUFMAX < 2^32` and `1 <= VMAX <= 4095`. -/
abbrev Config.Valid (c : Config) : Prop :=
  1 ≤ c.bufmax ∧ c.bufmax < 2 ^ 32 ∧ 1 ≤ c.vmax ∧ c.vmax ≤ 4095

/-- The reference values of rule R6, which the spec's test vectors use. -/
def Config.reference : Config := { bufmax := 2048, vmax := 256 }

end Sys2Proof
end

