-- ==== Sys2Proof/Machine/State.lean ====
section
/-! DEFINITION. The state of the LCB (spec/10_state.md), its reset value (rule R29), the responses it gives
(rule R70 of spec/30_encoding.md) and the ways a step of the model can stop. -/

namespace Sys2Proof.Machine

open Sys2Proof

/-- The four faults of rule R200 (spec/60_exceptions.md). Taking one is a next state (rule R203), not a stop. -/
inductive FaultKind where
  /-- a write command whose run does not fit -/
  | capacityError
  /-- a read command whose run is not there -/
  | formatError
  /-- the command word spells no command -/
  | illegalCommand
  /-- an operand value is outside what the command accepts -/
  | operandError
deriving DecidableEq, Repr

/-- The status `ST` of a response: exactly the five values of rule R200 (item U3 of
spec/93_implementation_defined.md). -/
inductive Status where
  | ok
  | fault (k : FaultKind)
deriving DecidableEq, Repr

/-- What the host presents: a command word and a data word (rule R70). -/
structure Transaction where
  cw : CmdWord
  din : Word
deriving DecidableEq, Repr

/-- What the LCB answers: a status and a data word (rule R70). -/
structure Response where
  st : Status
  dout : Word
deriving DecidableEq, Repr

/-- A buffer space (rule R50 of spec/20_memory.md) as (byte index, byte) pairs: indices strictly rising, no listed
byte equal to 0, which is what an unlisted byte reads as (assumption log 5). Its size is `wcap` or `rlen`. -/
abbrev Memory := List Host.Cell

/-- The whole state: the tuple of rule R27 and, marked so, the model's own fields (the parameters and the host's
side of the command port). -/
structure State where
  /-- the model's own: the parameters `BUFMAX` and `VMAX` of rule R6, which no command changes -/
  cfg : Config
  /-- `X0..X7` (rule R20) -/
  x : Vector Word 8
  /-- `VB[0..3]`, the bits of `V0..V3` in index order; `VN[i]` is the length of `v[i]` (rule R21) -/
  v : Vector Bits 4
  /-- `WCAP`: the writer's capacity in bytes (rule R24) -/
  wcap : Nat
  /-- `WPOS`: the writer's position in bits (rule R24) -/
  wpos : Nat
  /-- `WBUF`: the writer's buffer (rule R24) -/
  wbuf : Memory
  /-- `RLEN`: the reader's length in bytes (rule R25) -/
  rlen : Nat
  /-- `RPOS`: the reader's position in bits (rule R25) -/
  rpos : Nat
  /-- `RBUF`: the reader's input (rule R25) -/
  rbuf : Memory
  /-- `AHWM`: the high-water mark (rule R26) -/
  ahwm : SeqNo
  /-- `AWIN`: the window in index order; `AW` is its length (rule R26) -/
  awin : Bits
  /-- `FSR`: bit 0 CAPF, bit 1 FMTF, bit 2 ILLF, bit 3 OPDF (rule R23) -/
  fsr : BitVec 4
  /-- the model's own: `DIN` of the transaction in progress (rule R70) -/
  din : Word
  /-- the model's own: the transactions the host has still to present, the next one first (rules R22 and R70) -/
  pending : List Transaction
  /-- the model's own: the responses given so far, oldest first (rules R70 and R241) -/
  responses : List Response
deriving DecidableEq, Repr

/-- The reset state of rule R29 for given parameters, before the host presents anything. -/
def State.resetWith (c : Config) : State where
  cfg := c
  x := Vector.replicate 8 0
  v := Vector.replicate 4 []
  wcap := 0
  wpos := 0
  wbuf := []
  rlen := 0
  rpos := 0
  rbuf := []
  ahwm := 0
  awin := []
  fsr := 0
  din := 0
  pending := []
  responses := []

/-- The machine right after reset (rules R29 and R230). DESIGN CHOICE (assumption log 1): the parameters are the
reference values of rule R6. -/
def State.reset : State := State.resetWith Config.reference

/-- Why a step of the model stops. -/
inductive Fault where
  /-- An access to a byte of `WBUF` at or beyond `WCAP`, which does not exist (rule R50). Raised by `WR.PAD`, `WR.GETB`
  and `RD.LDW`, and only in a state with `WPOS > 8*WCAP`, which rule R28 rules out: no run from reset reaches it. SAFE. -/
  | noSuchByte
deriving DecidableEq, Repr

/-- Why a step of the model has no meaning. -/
inductive Refusal where
  /-- An instruction without a meaning in this model. Raised only by an arm of `exec` that rejects by name; every
  command has a meaning, so none is left. SAFE. -/
  | notModelled (mnemonic : String)
deriving DecidableEq, Repr

/-- The outcome of a command. -/
abbrev Out := Host.Outcome State Fault Refusal

end Sys2Proof.Machine
end

