-- ==== Sys2Proof/Machine/Flags.lean ====
section
/-! DEFINITION. The fault status register (rule R23 of spec/10_state.md) and the fault codes (rule R200 of
spec/60_exceptions.md). No command sets condition codes (rule R177), so these are all the flags. -/

namespace Sys2Proof.Machine

open Sys2Proof

/-- The code of a fault (rule R200). -/
def FaultKind.code : FaultKind → Nat
  | .capacityError => 1
  | .formatError => 2
  | .illegalCommand => 3
  | .operandError => 4

/-- `ST` as the 4-bit number of rule R70: 0 for OK, else the fault's code. -/
def Status.code : Status → BitVec 4
  | .ok => 0
  | .fault k => BitVec.ofNat 4 k.code

/-- The `FSR` bit of a fault: its index is the code minus 1 (rule R200). -/
def fsrBit (k : FaultKind) : BitVec 4 := 1#4 <<< (k.code - 1)

/-- `FSR` with the bit of a fault set, the others kept: the bits are sticky (rules R23 and R203). -/
def setFsr (fsr : BitVec 4) (k : FaultKind) : BitVec 4 := fsr ||| fsrBit k

/-- The flag of a fault kind in `FSR`: CAPF, FMTF, ILLF or OPDF (rule R23). -/
def State.flag (s : State) (k : FaultKind) : Bool := s.fsr.getLsbD (k.code - 1)

end Sys2Proof.Machine
end

