-- ==== Sys2Proof/Syntax.lean ====
section
/-! DEFINITION. The 52 commands of LCB command set version 1 (rule R74 of spec/30_encoding.md), one constructor per
row of spec/opcode_table.json. The arguments stand in field order `a`, `b`, `c`, `imm12` (rule R77). -/

namespace Sys2Proof

/-- The number of a general register `X0..X7` (rule R20). -/
abbrev XReg := Fin 8

/-- The number of a vector register `V0..V3` (rule R21). -/
abbrev VReg := Fin 4

/-- A command with its operands. An immediate is the unsigned number of rule R72, used as it stands;
that it fits in 12 bits is `Instr.wf`. -/
inductive Instr where
  -- unit 0, SYS (spec/40_sys.md)
  | nop
  | li (a : XReg) (imm : Nat)
  | movi (a : XReg)
  | movo (a : XReg)
  | getf (a : XReg)
  | clrf
  | srst
  -- unit 1, BV (spec/41_bitvector.md)
  | bvNew (a : VReg) (imm : Nat)
  | bvSeti (a : VReg) (imm : Nat)
  | bvClri (a : VReg) (imm : Nat)
  | bvTsti (a : XReg) (b : VReg) (imm : Nat)
  | bvSet (a : VReg) (b : XReg)
  | bvClr (a : VReg) (b : XReg)
  | bvTst (a : XReg) (b : VReg) (c : XReg)
  | bvShli (a : VReg) (imm : Nat)
  | bvShl (a : VReg) (b : XReg)
  | bvClra (a : VReg)
  | bvLen (a : XReg) (b : VReg)
  -- unit 2, WR (spec/42_writer.md)
  | wrInit (a : XReg)
  | wrBit (a : XReg)
  | wrU8 (a : XReg)
  | wrU16 (a : XReg)
  | wrU32 (a : XReg)
  | wrU64 (a : XReg)
  | wrV (a : VReg)
  | wrPad
  | wrPos (a : XReg)
  | wrLen (a : XReg)
  | wrGetb (a : XReg) (b : XReg)
  -- unit 3, RD (spec/43_reader.md)
  | rdInit
  | rdPutb (a : XReg)
  | rdLdw
  | rdBit (a : XReg)
  | rdU8 (a : XReg)
  | rdU16 (a : XReg)
  | rdI16 (a : XReg)
  | rdU32 (a : XReg)
  | rdI32 (a : XReg)
  | rdU64 (a : XReg)
  | rdV (a : VReg) (imm : Nat)
  | rdPad
  | rdPos (a : XReg)
  | rdLen (a : XReg)
  -- unit 4, SEQ (spec/44_seqno.md)
  | seqCmp (a b c : XReg)
  | seqDif (a b c : XReg)
  | seqAdd (a b c : XReg)
  | seqSub (a b c : XReg)
  -- unit 5, ACK (spec/45_ackwindow.md)
  | ackInit (a : XReg) (imm : Nat)
  | ackRx (a : XReg)
  | ackHwm (a : XReg)
  | ackWin (a : VReg)
  | ackIsrx (a b : XReg)
deriving DecidableEq, Repr

end Sys2Proof
end

