-- ==== Sys2Proof/Machine/Operands.lean ====
section
/-! DEFINITION. Register access and every form in which a command reads an operand or writes a result: rules R7 to
R9 of spec/00_scope.md, R20 and R21 of spec/10_state.md, R170 and R177 of spec/44_seqno.md. -/

namespace Sys2Proof.Machine

open Sys2Proof

/-- `x[i]`: read a general register. No register is hardwired (rule R20). -/
def State.getX (s : State) (r : XReg) : Word := s.x[r]

/-- `x[i] <- w`: write a general register. -/
def State.setX (s : State) (r : XReg) (w : Word) : State := { s with x := s.x.set r w }

/-- `vb[i]`: the bits of a vector register (rule R21). -/
def State.getV (s : State) (r : VReg) : Bits := s.v[r]

/-- `vn[i]`: the capacity of a vector register (rule R21). -/
def State.getVN (s : State) (r : VReg) : Nat := (s.getV r).length

/-- `vn[i] <- length, vb[i] <- bits`: replace a whole vector register. -/
def State.setV (s : State) (r : VReg) (bits : Bits) : State := { s with v := s.v.set r bits }

/-- `AW`: the window width (rule R26). -/
def State.aw (s : State) : Nat := s.awin.length

/-- A register read as an index, an amount or a capacity: all 64 bits, unsigned, never reduced (rule R177). -/
def unsignedOf (w : Word) : Nat := w.toNat

/-- A register read as a sequence number: bits 15:0, the rest ignored (rule R170). -/
def seqOf (w : Word) : SeqNo := w.setWidth 16

/-- A register read as a byte: bits 7:0, the rest ignored (rule R152). -/
def byteOf (w : Word) : Byte := w.setWidth 8

/-- The low `n` bits of a register, least significant first: `[v[0], ..., v[n-1]]` (rules R52 and R132 to R136). -/
def lowBits (n : Nat) (w : Word) : Bits := (List.range n).map w.getLsbD

/-- `zext_64` of a natural number: an immediate, a position, a length, a byte or a bit run (rule R9). -/
def zext (n : Nat) : Word := BitVec.ofNat 64 n

/-- `zext_64` of a bit (rule R9). -/
def zextBit (b : Bool) : Word := zext b.toNat

/-- `sext_64` of a value of width `w` (rule R9): bit `w-1` copied to the left. -/
def sext (w n : Nat) : Word := (BitVec.ofNat w n).signExtend 64

/-- `sext_64` of an integer: its 64-bit two's complement (rules R9, R171 and R172). -/
def sextInt (d : Int) : Word := BitVec.ofInt 64 d

end Sys2Proof.Machine
end

