-- ==== Sys2Proof/Machine/Ops.lean ====
section
/-! DEFINITION. The shared operations: the buffer spaces (spec/20_memory.md), BitVectors and circular difference
(rule R10 of spec/00_scope.md), responding (rule R70 of spec/30_encoding.md), taking a fault (rule R203 of
spec/60_exceptions.md) and the common write and read steps (rules R130 and R150). -/

namespace Sys2Proof.Machine

open Sys2Proof

/-! ## Buffer spaces -/

/-- The byte at index `a`; a byte that is not listed is 0, as `WR.INIT` leaves it (rule R131; assumption log 5). -/
def Memory.read : Memory → Nat → Byte
  | [], _ => 0
  | c :: m, a => if c.1 = a then c.2 else Memory.read m a

/-- A cell put before the first one with a greater index. -/
def Memory.insert (a : Nat) (b : Byte) : Memory → Memory
  | [] => [(a, b)]
  | c :: m => if a < c.1 then (a, b) :: c :: m else c :: Memory.insert a b m

/-- `MemWrite`: replace the byte at index `a` (rule R9), keeping the canonical form. -/
def Memory.write (m : Memory) (a : Nat) (b : Byte) : Memory :=
  let rest := m.filter fun c => c.1 != a
  if b = 0 then rest else Memory.insert a b rest

/-- The first `n` bytes of a buffer space. -/
def Memory.take (m : Memory) (n : Nat) : Memory := m.filter fun c => c.1 < n

/-- The canonical form: indices strictly rising and no listed byte equal to 0. -/
def Memory.wf : Memory → Bool
  | [] => true
  | c :: m => c.2 != 0 && m.all (fun d => c.1 < d.1) && Memory.wf m

/-- A byte with bit `k` replaced by `b`, the other bits kept. -/
def setByteBit (w : Byte) (k : Nat) (b : Bool) : Byte :=
  if b then w ||| (1#8 <<< k) else w &&& ~~~(1#8 <<< k)

/-- `WBIT(p)`, `RBIT(p)`: bit `p mod 8` of byte `p div 8` (rules R9 and R51). -/
def Memory.bit (m : Memory) (p : Nat) : Bool := (Memory.read m (p / 8)).getLsbD (p % 8)

/-- `SETWBIT(p, b)` (rules R9 and R51). -/
def Memory.setBit (m : Memory) (p : Nat) (b : Bool) : Memory :=
  Memory.write m (p / 8) (setByteBit (Memory.read m (p / 8)) (p % 8) b)

/-- The loop of `WriteBits`: the run replaces the bits from position `p` upward (rule R130). -/
def Memory.writeRun (m : Memory) (p : Nat) : Bits → Memory
  | [] => m
  | b :: t => Memory.writeRun (Memory.setBit m p b) (p + 1) t

/-- The loop of `ReadBits`: the `n` bits from position `p` upward (rule R150). -/
def Memory.readRun (m : Memory) (p : Nat) : Nat → Bits
  | 0 => []
  | n + 1 => Memory.bit m p :: Memory.readRun m (p + 1) n

/-- `ceil8(p)`: the number of bytes needed for `p` bits (rule R8). -/
def ceil8 (p : Nat) : Nat := (p + 7) / 8

/-- `{t[n-1], ..., t[0]}` as a number: `t[j]` has weight `2^j` (rules R52 and R155). -/
def ofBits : Bits → Nat
  | [] => 0
  | b :: t => b.toNat + 2 * ofBits t

/-! ## BitVectors and sequence numbers -/

/-- `zeros(n)` (rule R10). -/
def zeros (n : Nat) : Bits := List.replicate n false

/-- The bit at an index (rule R9). -/
def bitAt (bits : Bits) (j : Nat) : Bool := bits.getD j false

/-- The vector with the bit at an index replaced. -/
def setBitAt (bits : Bits) (j : Nat) (b : Bool) : Bits := bits.set j b

/-- `shl(bits, n, k)` with `n` the capacity of `bits` (rule R10). -/
def shl (bits : Bits) (k : Nat) : Bits :=
  (List.range bits.length).map fun j => if k ≤ j then bitAt bits (j - k) else false

/-- `sdiff16(a, b)`: `(a - b) mod 65536` read as 16-bit two's complement (rule R10). -/
def sdiff16 (a b : SeqNo) : Int :=
  let u := (a - b).toNat
  if u < 32768 then u else (u : Int) - 65536

/-! ## Responses and faults -/

/-- The state with one more response given. -/
def State.answer (s : State) (st : Status) (dout : Word) : State :=
  { s with responses := s.responses ++ [⟨st, dout⟩] }

/-- A command succeeds: `ST = 0`, `DOUT = 0` (rule R70). -/
def done (s : State) : Out := .next (s.answer .ok 0)

/-- A command succeeds with a data word: `MOVO` alone (rules R70 and R103). -/
def doneWith (s : State) (dout : Word) : Out := .next (s.answer .ok dout)

/-- Fault entry (rule R203): the bit of the fault is set in `FSR`, the response carries its code and `DOUT = 0`, and
nothing else changes. There is no return from a fault, because nothing was entered (rule R205). -/
def State.takeFault (s : State) (k : FaultKind) : State :=
  ({ s with fsr := setFsr s.fsr k }).answer (.fault k) 0

/-- `raise` (rules R9 and R203): the command ends at once with the fault. -/
def raise (k : FaultKind) (s : State) : Out := .next (s.takeFault k)

/-! ## The common write and read steps -/

/-- `WriteBits(n, t)` with `n` the length of `t` (rule R130). -/
def writeBits (t : Bits) (s : State) : Out :=
  if 8 * s.wcap < s.wpos + t.length then raise .capacityError s
  else done { s with wbuf := Memory.writeRun s.wbuf s.wpos t, wpos := s.wpos + t.length }

/-- `ReadBits(n)` followed by the writes that use its result (rule R150). -/
def readBits (n : Nat) (use : Bits → State → State) (s : State) : Out :=
  if 8 * s.rlen < s.rpos + n then raise .formatError s
  else done (use (Memory.readRun s.rbuf s.rpos n) { s with rpos := s.rpos + n })

/-- `GetBytes()`: the bytes `0 .. ceil8(WPOS)-1` of `WBUF` (rule R141). -/
def State.getBytes (s : State) : List Byte := (List.range (ceil8 s.wpos)).map (Memory.read s.wbuf)

end Sys2Proof.Machine
end

