-- ==== Sys2Proof/Machine/AckWindow.lean ====
section
/-! DEFINITION. The ACK commands: rules R180 to R184 of spec/45_ackwindow.md. -/

namespace Sys2Proof.Machine

open Sys2Proof

/-- `ACK.INIT Xs, #W` (rule R180). -/
def execAckInit (a : XReg) (imm : Nat) (s : State) : Out :=
  if s.cfg.vmax < imm then raise .operandError s
  else done { s with awin := zeros imm, ahwm := seqOf (s.getX a) }

/-- The window after the mark has moved forward by `diff >= 1` (rule R181): cleared when `diff > W`, else shifted, and
the bit of the previous mark set on the shifted window. -/
def advanceWindow (win : Bits) (diff : Nat) : Bits :=
  if win.length < diff then zeros win.length else setBitAt (shl win diff) (diff - 1) true

/-- The window after a number `d >= 1` below the mark was received (rule R181): ignored when `d > W`. -/
def markOlder (win : Bits) (d : Nat) : Bits :=
  if d ≤ win.length then setBitAt win (d - 1) true else win

/-- `ACK.RX Xs` (rule R181): the source's `AckReceive(seq)`. -/
def execAckRx (a : XReg) (s : State) : Out :=
  let seq := seqOf (s.getX a)
  let diff := sdiff16 seq s.ahwm
  if diff = 0 then done s
  else if 0 < diff then done { s with awin := advanceWindow s.awin diff.toNat, ahwm := seq }
  else done { s with awin := markOlder s.awin (-diff).toNat }

/-- `ACK.HWM Xd` (rule R182). -/
def execAckHwm (a : XReg) (s : State) : Out := done (s.setX a (zext s.ahwm.toNat))

/-- `ACK.WIN Vd` (rule R183): a copy of the window. -/
def execAckWin (a : VReg) (s : State) : Out := done (s.setV a s.awin)

/-- Whether a sequence number is known received (rule R184). -/
def knownReceived (ahwm : SeqNo) (win : Bits) (seq : SeqNo) : Bool :=
  let diff := sdiff16 seq ahwm
  if diff = 0 then true
  else if 0 < diff then false
  else
    let d := (-diff).toNat
    if d ≤ win.length then bitAt win (d - 1) else false

/-- `ACK.ISRX Xd, Xs` (rule R184). -/
def execAckIsrx (a b : XReg) (s : State) : Out :=
  done (s.setX a (zextBit (knownReceived s.ahwm s.awin (seqOf (s.getX b)))))

end Sys2Proof.Machine
end

