-- ==== Sys2Proof/Machine/BitVector.lean ====
section
/-! DEFINITION. The BV commands: rules R110 to R120 of spec/41_bitvector.md. Iteration as booleans (rule R121) is
`State.getV` in list order. -/

namespace Sys2Proof.Machine

open Sys2Proof

/-- Replace the bit at index `i` of a vector register, or raise OperandError (rules R111, R112, R114 and R115). -/
def replaceBit (a : VReg) (i : Nat) (b : Bool) (s : State) : Out :=
  if s.getVN a ≤ i then raise .operandError s else done (s.setV a (setBitAt (s.getV a) i b))

/-- Test the bit at index `i` of a vector register, or raise OperandError (rules R113 and R116). -/
def testBit (d : XReg) (b : VReg) (i : Nat) (s : State) : Out :=
  if s.getVN b ≤ i then raise .operandError s else done (s.setX d (zextBit (bitAt (s.getV b) i)))

/-- Shift a vector register left by any amount (rules R117 and R118). -/
def shiftLeft (a : VReg) (k : Nat) (s : State) : Out := done (s.setV a (shl (s.getV a) k))

/-- `BV.NEW Vd, #n` (rule R110). -/
def execBvNew (a : VReg) (imm : Nat) (s : State) : Out :=
  if s.cfg.vmax < imm then raise .operandError s else done (s.setV a (zeros imm))

/-- `BV.SETI Vd, #i` (rule R111). -/
def execBvSeti (a : VReg) (imm : Nat) (s : State) : Out := replaceBit a imm true s

/-- `BV.CLRI Vd, #i` (rule R112). -/
def execBvClri (a : VReg) (imm : Nat) (s : State) : Out := replaceBit a imm false s

/-- `BV.TSTI Xd, Vs, #i` (rule R113). -/
def execBvTsti (a : XReg) (b : VReg) (imm : Nat) (s : State) : Out := testBit a b imm s

/-- `BV.SET Vd, Xi` (rule R114). -/
def execBvSet (a : VReg) (b : XReg) (s : State) : Out := replaceBit a (unsignedOf (s.getX b)) true s

/-- `BV.CLR Vd, Xi` (rule R115). -/
def execBvClr (a : VReg) (b : XReg) (s : State) : Out := replaceBit a (unsignedOf (s.getX b)) false s

/-- `BV.TST Xd, Vs, Xi` (rule R116). -/
def execBvTst (a : XReg) (b : VReg) (c : XReg) (s : State) : Out := testBit a b (unsignedOf (s.getX c)) s

/-- `BV.SHLI Vd, #k` (rule R117). -/
def execBvShli (a : VReg) (imm : Nat) (s : State) : Out := shiftLeft a imm s

/-- `BV.SHL Vd, Xk` (rule R118). -/
def execBvShl (a : VReg) (b : XReg) (s : State) : Out := shiftLeft a (unsignedOf (s.getX b)) s

/-- `BV.CLRA Vd` (rule R119). -/
def execBvClra (a : VReg) (s : State) : Out := done (s.setV a (zeros (s.getVN a)))

/-- `BV.LEN Xd, Vs` (rule R120). -/
def execBvLen (a : XReg) (b : VReg) (s : State) : Out := done (s.setX a (zext (s.getVN b)))

end Sys2Proof.Machine
end

