-- ==== Sys2Proof/Machine/Reader.lean ====
section
/-! DEFINITION. The RD commands: rules R150 to R164 of spec/43_reader.md. Signed 64-bit and floating values are read
by the same commands (rules R78 and R165). -/

namespace Sys2Proof.Machine

open Sys2Proof

/-- Read `n` bits into a general register, zero-extended (rules R154, R155, R156, R158 and R160). -/
def readUnsigned (n : Nat) (d : XReg) (s : State) : Out := readBits n (fun t s' => s'.setX d (zext (ofBits t))) s

/-- Read `n` bits into a general register, sign-extended (rules R157 and R159). -/
def readSigned (n : Nat) (d : XReg) (s : State) : Out := readBits n (fun t s' => s'.setX d (sext n (ofBits t))) s

/-- `RD.INIT` (rule R151). -/
def execRdInit (s : State) : Out := done { s with rlen := 0, rbuf := [], rpos := 0 }

/-- `RD.PUTB Xs` (rule R152). -/
def execRdPutb (a : XReg) (s : State) : Out :=
  if s.cfg.bufmax ≤ s.rlen then raise .operandError s
  else done { s with rbuf := Memory.write s.rbuf s.rlen (byteOf (s.getX a)), rlen := s.rlen + 1 }

/-- `RD.LDW` (rule R153): the input becomes a copy of `GetBytes()`. -/
def execRdLdw (s : State) : Out :=
  if s.wcap < ceil8 s.wpos then .fault .noSuchByte
  else done { s with rbuf := Memory.take s.wbuf (ceil8 s.wpos), rlen := ceil8 s.wpos, rpos := 0 }

/-- `RD.BIT Xd` (rule R154). -/
def execRdBit (a : XReg) (s : State) : Out := readUnsigned 1 a s

/-- `RD.U8 Xd` (rule R155). -/
def execRdU8 (a : XReg) (s : State) : Out := readUnsigned 8 a s

/-- `RD.U16 Xd` (rule R156). -/
def execRdU16 (a : XReg) (s : State) : Out := readUnsigned 16 a s

/-- `RD.I16 Xd` (rule R157). -/
def execRdI16 (a : XReg) (s : State) : Out := readSigned 16 a s

/-- `RD.U32 Xd` (rule R158). -/
def execRdU32 (a : XReg) (s : State) : Out := readUnsigned 32 a s

/-- `RD.I32 Xd` (rule R159). -/
def execRdI32 (a : XReg) (s : State) : Out := readSigned 32 a s

/-- `RD.U64 Xd` (rule R160). -/
def execRdU64 (a : XReg) (s : State) : Out := readUnsigned 64 a s

/-- `RD.V Vd, #n` (rule R161): the limit is tested before the bounds (rule R202). -/
def execRdV (a : VReg) (imm : Nat) (s : State) : Out :=
  if s.cfg.vmax < imm then raise .operandError s else readBits imm (fun t s' => s'.setV a t) s

/-- `RD.PAD` (rule R162): the skipped bits are not looked at. -/
def execRdPad (s : State) : Out := done { s with rpos := 8 * ceil8 s.rpos }

/-- `RD.POS Xd` (rule R163): in bits. -/
def execRdPos (a : XReg) (s : State) : Out := done (s.setX a (zext s.rpos))

/-- `RD.LEN Xd` (rule R164): in bytes. -/
def execRdLen (a : XReg) (s : State) : Out := done (s.setX a (zext s.rlen))

end Sys2Proof.Machine
end

