-- ==== Sys2Proof/Machine/SeqNumber.lean ====
section
/-! DEFINITION. The SEQ commands: rules R170 to R174 of spec/44_seqno.md. -/

namespace Sys2Proof.Machine

open Sys2Proof

/-- Apply an operation to the sequence numbers in two registers and write the result to a third (rule R170). -/
def onSeqs (op : SeqNo → SeqNo → Word) (d b c : XReg) (s : State) : Out :=
  done (s.setX d (op (seqOf (s.getX b)) (seqOf (s.getX c))))

/-- The verdict of the circular comparison: 0, 1 or -1 (rule R171). -/
def seqVerdict (p q : SeqNo) : Int :=
  let d := sdiff16 p q
  if d = 0 then 0 else if 0 < d then 1 else -1

/-- `SEQ.CMP Xd, Xs1, Xs2` (rule R171). -/
def execSeqCmp (a b c : XReg) (s : State) : Out := onSeqs (fun p q => sextInt (seqVerdict p q)) a b c s

/-- `SEQ.DIF Xd, Xs1, Xs2` (rule R172). -/
def execSeqDif (a b c : XReg) (s : State) : Out := onSeqs (fun p q => sextInt (sdiff16 p q)) a b c s

/-- `SEQ.ADD Xd, Xs1, Xs2` (rule R173). -/
def execSeqAdd (a b c : XReg) (s : State) : Out := onSeqs (fun p q => zext (p + q).toNat) a b c s

/-- `SEQ.SUB Xd, Xs1, Xs2` (rule R174). -/
def execSeqSub (a b c : XReg) (s : State) : Out := onSeqs (fun p q => zext (p - q).toNat) a b c s

end Sys2Proof.Machine
end

