-- ==== Sys2Proof/Machine/Sys.lean ====
section
/-! DEFINITION. The SYS commands: rules R100 to R106 of spec/40_sys.md. -/

namespace Sys2Proof.Machine

open Sys2Proof

/-- `NOP` (rule R100). -/
def execNop (s : State) : Out := done s

/-- `LI Xd, #imm` (rule R101). -/
def execLi (a : XReg) (imm : Nat) (s : State) : Out := done (s.setX a (zext imm))

/-- `MOVI Xd` (rule R102): the only command that reads `DIN`. -/
def execMovi (a : XReg) (s : State) : Out := done (s.setX a s.din)

/-- `MOVO Xs` (rule R103): the only command with a non-zero `DOUT`. -/
def execMovo (a : XReg) (s : State) : Out := doneWith s (s.getX a)

/-- `GETF Xd` (rule R104). -/
def execGetf (a : XReg) (s : State) : Out := done (s.setX a (zext s.fsr.toNat))

/-- `CLRF` (rule R105). -/
def execClrf (s : State) : Out := done { s with fsr := 0 }

/-- `SRST` (rules R106 and R231): every piece of state of rule R27 takes its reset value; the parameters and the
host's side of the port are not the block's state and stay. -/
def execSrst (s : State) : Out :=
  done { State.resetWith s.cfg with din := s.din, pending := s.pending, responses := s.responses }

end Sys2Proof.Machine
end

