-- ==== Sys2Proof/Machine/Writer.lean ====
section
/-! DEFINITION. The WR commands: rules R130 to R142 of spec/42_writer.md. Signed and floating values are written as
their bit patterns by the same commands (rules R78 and R143). -/

namespace Sys2Proof.Machine

open Sys2Proof

/-- `WR.INIT Xs` (rule R131): the buffer becomes `WCAP` zero bytes. -/
def execWrInit (a : XReg) (s : State) : Out :=
  if s.cfg.bufmax < unsignedOf (s.getX a) then raise .operandError s
  else done { s with wcap := unsignedOf (s.getX a), wbuf := [], wpos := 0 }

/-- `WR.BIT Xs` (rule R132). -/
def execWrBit (a : XReg) (s : State) : Out := writeBits (lowBits 1 (s.getX a)) s

/-- `WR.U8 Xs` (rule R133). -/
def execWrU8 (a : XReg) (s : State) : Out := writeBits (lowBits 8 (s.getX a)) s

/-- `WR.U16 Xs` (rule R134). -/
def execWrU16 (a : XReg) (s : State) : Out := writeBits (lowBits 16 (s.getX a)) s

/-- `WR.U32 Xs` (rule R135). -/
def execWrU32 (a : XReg) (s : State) : Out := writeBits (lowBits 32 (s.getX a)) s

/-- `WR.U64 Xs` (rule R136). -/
def execWrU64 (a : XReg) (s : State) : Out := writeBits (lowBits 64 (s.getX a)) s

/-- `WR.V Vs` (rule R138): all bits of the vector, index 0 first. -/
def execWrV (a : VReg) (s : State) : Out := writeBits (s.getV a) s

/-- `WR.PAD` (rule R137): zero bits up to the next byte boundary, none when on one. -/
def execWrPad (s : State) : Out :=
  let np := 8 * ceil8 s.wpos
  if s.wpos < np ∧ 8 * s.wcap < np then .fault .noSuchByte
  else done { s with wbuf := Memory.writeRun s.wbuf s.wpos (zeros (np - s.wpos)), wpos := np }

/-- `WR.POS Xd` (rule R139): in bits. -/
def execWrPos (a : XReg) (s : State) : Out := done (s.setX a (zext s.wpos))

/-- `WR.LEN Xd` (rule R140): in bytes. -/
def execWrLen (a : XReg) (s : State) : Out := done (s.setX a (zext (ceil8 s.wpos)))

/-- `WR.GETB Xd, Xi` (rule R142). -/
def execWrGetb (a b : XReg) (s : State) : Out :=
  let i := unsignedOf (s.getX b)
  if ceil8 s.wpos ≤ i then raise .operandError s
  else if s.wcap ≤ i then .fault .noSuchByte
  else done (s.setX a (zext (Memory.read s.wbuf i).toNat))

end Sys2Proof.Machine
end

