-- ==== Sys2Proof/Machine/Dispatch.lean ====
section
/-! DEFINITION. One arm per command (rule R74 of spec/30_encoding.md). -/

namespace Sys2Proof.Machine

open Sys2Proof

def exec (i : Instr) (s : State) : Host.Outcome State Fault Refusal :=
  match i with
  | .nop => Sys2Proof.Machine.execNop s
  | .li a imm => Sys2Proof.Machine.execLi a imm s
  | .movi a => Sys2Proof.Machine.execMovi a s
  | .movo a => Sys2Proof.Machine.execMovo a s
  | .getf a => Sys2Proof.Machine.execGetf a s
  | .clrf => Sys2Proof.Machine.execClrf s
  | .srst => Sys2Proof.Machine.execSrst s
  | .bvNew a imm => Sys2Proof.Machine.execBvNew a imm s
  | .bvSeti a imm => Sys2Proof.Machine.execBvSeti a imm s
  | .bvClri a imm => Sys2Proof.Machine.execBvClri a imm s
  | .bvTsti a b imm => Sys2Proof.Machine.execBvTsti a b imm s
  | .bvSet a b => Sys2Proof.Machine.execBvSet a b s
  | .bvClr a b => Sys2Proof.Machine.execBvClr a b s
  | .bvTst a b c => Sys2Proof.Machine.execBvTst a b c s
  | .bvShli a imm => Sys2Proof.Machine.execBvShli a imm s
  | .bvShl a b => Sys2Proof.Machine.execBvShl a b s
  | .bvClra a => Sys2Proof.Machine.execBvClra a s
  | .bvLen a b => Sys2Proof.Machine.execBvLen a b s
  | .wrInit a => Sys2Proof.Machine.execWrInit a s
  | .wrBit a => Sys2Proof.Machine.execWrBit a s
  | .wrU8 a => Sys2Proof.Machine.execWrU8 a s
  | .wrU16 a => Sys2Proof.Machine.execWrU16 a s
  | .wrU32 a => Sys2Proof.Machine.execWrU32 a s
  | .wrU64 a => Sys2Proof.Machine.execWrU64 a s
  | .wrV a => Sys2Proof.Machine.execWrV a s
  | .wrPad => Sys2Proof.Machine.execWrPad s
  | .wrPos a => Sys2Proof.Machine.execWrPos a s
  | .wrLen a => Sys2Proof.Machine.execWrLen a s
  | .wrGetb a b => Sys2Proof.Machine.execWrGetb a b s
  | .rdInit => Sys2Proof.Machine.execRdInit s
  | .rdPutb a => Sys2Proof.Machine.execRdPutb a s
  | .rdLdw => Sys2Proof.Machine.execRdLdw s
  | .rdBit a => Sys2Proof.Machine.execRdBit a s
  | .rdU8 a => Sys2Proof.Machine.execRdU8 a s
  | .rdU16 a => Sys2Proof.Machine.execRdU16 a s
  | .rdI16 a => Sys2Proof.Machine.execRdI16 a s
  | .rdU32 a => Sys2Proof.Machine.execRdU32 a s
  | .rdI32 a => Sys2Proof.Machine.execRdI32 a s
  | .rdU64 a => Sys2Proof.Machine.execRdU64 a s
  | .rdV a imm => Sys2Proof.Machine.execRdV a imm s
  | .rdPad => Sys2Proof.Machine.execRdPad s
  | .rdPos a => Sys2Proof.Machine.execRdPos a s
  | .rdLen a => Sys2Proof.Machine.execRdLen a s
  | .seqCmp a b c => Sys2Proof.Machine.execSeqCmp a b c s
  | .seqDif a b c => Sys2Proof.Machine.execSeqDif a b c s
  | .seqAdd a b c => Sys2Proof.Machine.execSeqAdd a b c s
  | .seqSub a b c => Sys2Proof.Machine.execSeqSub a b c s
  | .ackInit a imm => Sys2Proof.Machine.execAckInit a imm s
  | .ackRx a => Sys2Proof.Machine.execAckRx a s
  | .ackHwm a => Sys2Proof.Machine.execAckHwm a s
  | .ackWin a => Sys2Proof.Machine.execAckWin a s
  | .ackIsrx a b => Sys2Proof.Machine.execAckIsrx a b s

end Sys2Proof.Machine
end

