-- ==== Sys2Proof/WellFormed.lean ====
section
/-! DEFINITION. Well-formed commands: rule R72 of spec/30_encoding.md bounds the immediate (`0 .. 4095`); the
register kinds of rule R73 hold by type. -/

namespace Sys2Proof

/-- An immediate of the 12-bit field `imm12` (rule R72). -/
def immOk (imm : Nat) : Bool := imm < 4096

/-- The command can be spelled by a command word: its immediate, if it has one, fits its field. -/
def Instr.wf : Instr → Bool
  | .li _ imm | .bvNew _ imm | .bvSeti _ imm | .bvClri _ imm | .bvTsti _ _ imm | .bvShli _ imm | .rdV _ imm
  | .ackInit _ imm => immOk imm
  | .nop | .movi _ | .movo _ | .getf _ | .clrf | .srst | .bvSet _ _ | .bvClr _ _ | .bvTst _ _ _ | .bvShl _ _
  | .bvClra _ | .bvLen _ _ | .wrInit _ | .wrBit _ | .wrU8 _ | .wrU16 _ | .wrU32 _ | .wrU64 _ | .wrV _ | .wrPad
  | .wrPos _ | .wrLen _ | .wrGetb _ _ | .rdInit | .rdPutb _ | .rdLdw | .rdBit _ | .rdU8 _ | .rdU16 _ | .rdI16 _
  | .rdU32 _ | .rdI32 _ | .rdU64 _ | .rdPad | .rdPos _ | .rdLen _ | .seqCmp _ _ _ | .seqDif _ _ _ | .seqAdd _ _ _
  | .seqSub _ _ _ | .ackRx _ | .ackHwm _ | .ackWin _ | .ackIsrx _ _ => true

end Sys2Proof
end

