-- ==== Sys2Proof/Decode.lean ====
section
/-! DEFINITION. The command word: its fields, the opcode table of rule R74, the decoder (rules R71 to R76) and the
encoder, of spec/30_encoding.md. -/

namespace Sys2Proof

/-- Bits `lo+len-1 : lo` of a command word as an unsigned number (rule R7 of spec/00_scope.md). -/
def field (w : CmdWord) (lo len : Nat) : Nat := w.toNat / 2 ^ lo % 2 ^ len

/-- The opcode, bits 31:24 (rule R71). -/
def opOf (w : CmdWord) : Nat := field w 24 8

/-- A kind-`X` register number in the field at bit `lo` (rule R73). -/
def xField (w : CmdWord) (lo : Nat) : XReg := ⟨field w lo 3, Nat.mod_lt _ (by decide)⟩

/-- A kind-`V` register number in the field at bit `lo`: its low two bits (rule R73; bit 2 of the field is
tested by `checkWord`). -/
def vField (w : CmdWord) (lo : Nat) : VReg := ⟨field w lo 2, Nat.mod_lt _ (by decide)⟩

/-- How a command uses a register field (rules R72 and R73). -/
inductive Use where
  /-- the field must be zero -/
  | unused
  /-- the field names a general register, all eight values legal -/
  | x
  /-- the field names a vector register, bit 2 of the field must be zero -/
  | v
deriving DecidableEq, Repr

/-- Why a word spells no command: the four kinds of rule R75. -/
inductive IllegalWord where
  /-- item 1: `op` is not one of the 52 values of rule R74 -/
  | noSuchOpcode
  /-- item 2: a defined `op` and a 1 in bit 23, 19 or 15 -/
  | reservedBit
  /-- item 3: a defined `op` and a non-zero bit in a field its format does not use -/
  | unusedField
  /-- item 4: a defined `op` and bit 2 set in a kind-`V` register field -/
  | vectorField
deriving DecidableEq, Repr

/-- One of the reserved bits 23, 19, 15 is set (rule R71). -/
def reservedSet (w : CmdWord) : Bool := field w 23 1 != 0 || field w 19 1 != 0 || field w 15 1 != 0

/-- The register field at bit `lo` is unused and not zero (rule R72). -/
def unusedSet (w : CmdWord) (lo : Nat) (u : Use) : Bool := u == .unused && field w lo 3 != 0

/-- The register field at bit `lo` is of kind `V` and its bit 2 is set (rule R73). -/
def vectorSet (w : CmdWord) (lo : Nat) (u : Use) : Bool := u == .v && field w (lo + 2) 1 != 0

/-- `i`, if the word obeys the format that uses the register fields as `a`, `b`, `c` say and the immediate if
`imm`; otherwise the name of what it breaks (rules R72, R73 and R75). -/
def checkWord (w : CmdWord) (a b c : Use) (imm : Bool) (i : Instr) : Except IllegalWord Instr :=
  if reservedSet w then .error .reservedBit
  else if unusedSet w 20 a || unusedSet w 16 b || unusedSet w 12 c || (!imm && field w 0 12 != 0) then
    .error .unusedField
  else if vectorSet w 20 a || vectorSet w 16 b || vectorSet w 12 c then .error .vectorField
  else .ok i

/-- The decoder (rule R76): total, from the command word alone. One line per row of rule R74. -/
def decode (w : CmdWord) : Except IllegalWord Instr :=
  match opOf w with
  | 0x00 => checkWord w .unused .unused .unused false .nop
  | 0x01 => checkWord w .x .unused .unused true (.li (xField w 20) (field w 0 12))
  | 0x02 => checkWord w .x .unused .unused false (.movi (xField w 20))
  | 0x03 => checkWord w .x .unused .unused false (.movo (xField w 20))
  | 0x04 => checkWord w .x .unused .unused false (.getf (xField w 20))
  | 0x05 => checkWord w .unused .unused .unused false .clrf
  | 0x06 => checkWord w .unused .unused .unused false .srst
  | 0x10 => checkWord w .v .unused .unused true (.bvNew (vField w 20) (field w 0 12))
  | 0x11 => checkWord w .v .unused .unused true (.bvSeti (vField w 20) (field w 0 12))
  | 0x12 => checkWord w .v .unused .unused true (.bvClri (vField w 20) (field w 0 12))
  | 0x13 => checkWord w .x .v .unused true (.bvTsti (xField w 20) (vField w 16) (field w 0 12))
  | 0x14 => checkWord w .v .x .unused false (.bvSet (vField w 20) (xField w 16))
  | 0x15 => checkWord w .v .x .unused false (.bvClr (vField w 20) (xField w 16))
  | 0x16 => checkWord w .x .v .x false (.bvTst (xField w 20) (vField w 16) (xField w 12))
  | 0x17 => checkWord w .v .unused .unused true (.bvShli (vField w 20) (field w 0 12))
  | 0x18 => checkWord w .v .x .unused false (.bvShl (vField w 20) (xField w 16))
  | 0x19 => checkWord w .v .unused .unused false (.bvClra (vField w 20))
  | 0x1A => checkWord w .x .v .unused false (.bvLen (xField w 20) (vField w 16))
  | 0x20 => checkWord w .x .unused .unused false (.wrInit (xField w 20))
  | 0x21 => checkWord w .x .unused .unused false (.wrBit (xField w 20))
  | 0x22 => checkWord w .x .unused .unused false (.wrU8 (xField w 20))
  | 0x23 => checkWord w .x .unused .unused false (.wrU16 (xField w 20))
  | 0x24 => checkWord w .x .unused .unused false (.wrU32 (xField w 20))
  | 0x25 => checkWord w .x .unused .unused false (.wrU64 (xField w 20))
  | 0x26 => checkWord w .v .unused .unused false (.wrV (vField w 20))
  | 0x27 => checkWord w .unused .unused .unused false .wrPad
  | 0x28 => checkWord w .x .unused .unused false (.wrPos (xField w 20))
  | 0x29 => checkWord w .x .unused .unused false (.wrLen (xField w 20))
  | 0x2A => checkWord w .x .x .unused false (.wrGetb (xField w 20) (xField w 16))
  | 0x30 => checkWord w .unused .unused .unused false .rdInit
  | 0x31 => checkWord w .x .unused .unused false (.rdPutb (xField w 20))
  | 0x32 => checkWord w .unused .unused .unused false .rdLdw
  | 0x33 => checkWord w .x .unused .unused false (.rdBit (xField w 20))
  | 0x34 => checkWord w .x .unused .unused false (.rdU8 (xField w 20))
  | 0x35 => checkWord w .x .unused .unused false (.rdU16 (xField w 20))
  | 0x36 => checkWord w .x .unused .unused false (.rdI16 (xField w 20))
  | 0x37 => checkWord w .x .unused .unused false (.rdU32 (xField w 20))
  | 0x38 => checkWord w .x .unused .unused false (.rdI32 (xField w 20))
  | 0x39 => checkWord w .x .unused .unused false (.rdU64 (xField w 20))
  | 0x3A => checkWord w .v .unused .unused true (.rdV (vField w 20) (field w 0 12))
  | 0x3B => checkWord w .unused .unused .unused false .rdPad
  | 0x3C => checkWord w .x .unused .unused false (.rdPos (xField w 20))
  | 0x3D => checkWord w .x .unused .unused false (.rdLen (xField w 20))
  | 0x40 => checkWord w .x .x .x false (.seqCmp (xField w 20) (xField w 16) (xField w 12))
  | 0x41 => checkWord w .x .x .x false (.seqDif (xField w 20) (xField w 16) (xField w 12))
  | 0x42 => checkWord w .x .x .x false (.seqAdd (xField w 20) (xField w 16) (xField w 12))
  | 0x43 => checkWord w .x .x .x false (.seqSub (xField w 20) (xField w 16) (xField w 12))
  | 0x50 => checkWord w .x .unused .unused true (.ackInit (xField w 20) (field w 0 12))
  | 0x51 => checkWord w .x .unused .unused false (.ackRx (xField w 20))
  | 0x52 => checkWord w .x .unused .unused false (.ackHwm (xField w 20))
  | 0x53 => checkWord w .v .unused .unused false (.ackWin (vField w 20))
  | 0x54 => checkWord w .x .x .unused false (.ackIsrx (xField w 20) (xField w 16))
  | _ => .error .noSuchOpcode

/-- The word with opcode `op`, fields `a`, `b`, `c`, immediate `imm` and the reserved bits zero (rule R71). -/
def wordOf (op a b c imm : Nat) : CmdWord :=
  BitVec.ofNat 32 (op * 2 ^ 24 + a * 2 ^ 20 + b * 2 ^ 16 + c * 2 ^ 12 + imm)

/-- The encoder: the command word of a well-formed command (rules R71 to R74; unused fields zero). -/
def encode : Instr → CmdWord
  | .nop => wordOf 0x00 0 0 0 0
  | .li a imm => wordOf 0x01 a 0 0 imm
  | .movi a => wordOf 0x02 a 0 0 0
  | .movo a => wordOf 0x03 a 0 0 0
  | .getf a => wordOf 0x04 a 0 0 0
  | .clrf => wordOf 0x05 0 0 0 0
  | .srst => wordOf 0x06 0 0 0 0
  | .bvNew a imm => wordOf 0x10 a 0 0 imm
  | .bvSeti a imm => wordOf 0x11 a 0 0 imm
  | .bvClri a imm => wordOf 0x12 a 0 0 imm
  | .bvTsti a b imm => wordOf 0x13 a b 0 imm
  | .bvSet a b => wordOf 0x14 a b 0 0
  | .bvClr a b => wordOf 0x15 a b 0 0
  | .bvTst a b c => wordOf 0x16 a b c 0
  | .bvShli a imm => wordOf 0x17 a 0 0 imm
  | .bvShl a b => wordOf 0x18 a b 0 0
  | .bvClra a => wordOf 0x19 a 0 0 0
  | .bvLen a b => wordOf 0x1A a b 0 0
  | .wrInit a => wordOf 0x20 a 0 0 0
  | .wrBit a => wordOf 0x21 a 0 0 0
  | .wrU8 a => wordOf 0x22 a 0 0 0
  | .wrU16 a => wordOf 0x23 a 0 0 0
  | .wrU32 a => wordOf 0x24 a 0 0 0
  | .wrU64 a => wordOf 0x25 a 0 0 0
  | .wrV a => wordOf 0x26 a 0 0 0
  | .wrPad => wordOf 0x27 0 0 0 0
  | .wrPos a => wordOf 0x28 a 0 0 0
  | .wrLen a => wordOf 0x29 a 0 0 0
  | .wrGetb a b => wordOf 0x2A a b 0 0
  | .rdInit => wordOf 0x30 0 0 0 0
  | .rdPutb a => wordOf 0x31 a 0 0 0
  | .rdLdw => wordOf 0x32 0 0 0 0
  | .rdBit a => wordOf 0x33 a 0 0 0
  | .rdU8 a => wordOf 0x34 a 0 0 0
  | .rdU16 a => wordOf 0x35 a 0 0 0
  | .rdI16 a => wordOf 0x36 a 0 0 0
  | .rdU32 a => wordOf 0x37 a 0 0 0
  | .rdI32 a => wordOf 0x38 a 0 0 0
  | .rdU64 a => wordOf 0x39 a 0 0 0
  | .rdV a imm => wordOf 0x3A a 0 0 imm
  | .rdPad => wordOf 0x3B 0 0 0 0
  | .rdPos a => wordOf 0x3C a 0 0 0
  | .rdLen a => wordOf 0x3D a 0 0 0
  | .seqCmp a b c => wordOf 0x40 a b c 0
  | .seqDif a b c => wordOf 0x41 a b c 0
  | .seqAdd a b c => wordOf 0x42 a b c 0
  | .seqSub a b c => wordOf 0x43 a b c 0
  | .ackInit a imm => wordOf 0x50 a 0 0 imm
  | .ackRx a => wordOf 0x51 a 0 0 0
  | .ackHwm a => wordOf 0x52 a 0 0 0
  | .ackWin a => wordOf 0x53 a 0 0 0
  | .ackIsrx a b => wordOf 0x54 a b 0 0

/-- The mnemonic of a command, as rule R74 and spec/opcode_table.json write it. -/
def Instr.mnemonic : Instr → String
  | .nop => "NOP"
  | .li _ _ => "LI"
  | .movi _ => "MOVI"
  | .movo _ => "MOVO"
  | .getf _ => "GETF"
  | .clrf => "CLRF"
  | .srst => "SRST"
  | .bvNew _ _ => "BV.NEW"
  | .bvSeti _ _ => "BV.SETI"
  | .bvClri _ _ => "BV.CLRI"
  | .bvTsti _ _ _ => "BV.TSTI"
  | .bvSet _ _ => "BV.SET"
  | .bvClr _ _ => "BV.CLR"
  | .bvTst _ _ _ => "BV.TST"
  | .bvShli _ _ => "BV.SHLI"
  | .bvShl _ _ => "BV.SHL"
  | .bvClra _ => "BV.CLRA"
  | .bvLen _ _ => "BV.LEN"
  | .wrInit _ => "WR.INIT"
  | .wrBit _ => "WR.BIT"
  | .wrU8 _ => "WR.U8"
  | .wrU16 _ => "WR.U16"
  | .wrU32 _ => "WR.U32"
  | .wrU64 _ => "WR.U64"
  | .wrV _ => "WR.V"
  | .wrPad => "WR.PAD"
  | .wrPos _ => "WR.POS"
  | .wrLen _ => "WR.LEN"
  | .wrGetb _ _ => "WR.GETB"
  | .rdInit => "RD.INIT"
  | .rdPutb _ => "RD.PUTB"
  | .rdLdw => "RD.LDW"
  | .rdBit _ => "RD.BIT"
  | .rdU8 _ => "RD.U8"
  | .rdU16 _ => "RD.U16"
  | .rdI16 _ => "RD.I16"
  | .rdU32 _ => "RD.U32"
  | .rdI32 _ => "RD.I32"
  | .rdU64 _ => "RD.U64"
  | .rdV _ _ => "RD.V"
  | .rdPad => "RD.PAD"
  | .rdPos _ => "RD.POS"
  | .rdLen _ => "RD.LEN"
  | .seqCmp _ _ _ => "SEQ.CMP"
  | .seqDif _ _ _ => "SEQ.DIF"
  | .seqAdd _ _ _ => "SEQ.ADD"
  | .seqSub _ _ _ => "SEQ.SUB"
  | .ackInit _ _ => "ACK.INIT"
  | .ackRx _ => "ACK.RX"
  | .ackHwm _ => "ACK.HWM"
  | .ackWin _ => "ACK.WIN"
  | .ackIsrx _ _ => "ACK.ISRX"

/-- A row of the opcode table of rule R74: the mnemonic with its `match` and `mask`, as the rule lists them. -/
structure Row where
  mnemonic : String
  pattern : CmdWord
  mask : CmdWord
deriving DecidableEq, Repr

/-- Rows of unit 0, SYS (rule R74). -/
def rowsSys : List Row :=
  [ ⟨"NOP", 0x00000000#32, 0xFFFFFFFF#32⟩,
    ⟨"LI", 0x01000000#32, 0xFF8FF000#32⟩,
    ⟨"MOVI", 0x02000000#32, 0xFF8FFFFF#32⟩,
    ⟨"MOVO", 0x03000000#32, 0xFF8FFFFF#32⟩,
    ⟨"GETF", 0x04000000#32, 0xFF8FFFFF#32⟩,
    ⟨"CLRF", 0x05000000#32, 0xFFFFFFFF#32⟩,
    ⟨"SRST", 0x06000000#32, 0xFFFFFFFF#32⟩ ]

/-- Rows of unit 1, BV (rule R74). -/
def rowsBv : List Row :=
  [ ⟨"BV.NEW", 0x10000000#32, 0xFFCFF000#32⟩,
    ⟨"BV.SETI", 0x11000000#32, 0xFFCFF000#32⟩,
    ⟨"BV.CLRI", 0x12000000#32, 0xFFCFF000#32⟩,
    ⟨"BV.TSTI", 0x13000000#32, 0xFF8CF000#32⟩,
    ⟨"BV.SET", 0x14000000#32, 0xFFC8FFFF#32⟩,
    ⟨"BV.CLR", 0x15000000#32, 0xFFC8FFFF#32⟩,
    ⟨"BV.TST", 0x16000000#32, 0xFF8C8FFF#32⟩,
    ⟨"BV.SHLI", 0x17000000#32, 0xFFCFF000#32⟩,
    ⟨"BV.SHL", 0x18000000#32, 0xFFC8FFFF#32⟩,
    ⟨"BV.CLRA", 0x19000000#32, 0xFFCFFFFF#32⟩,
    ⟨"BV.LEN", 0x1A000000#32, 0xFF8CFFFF#32⟩ ]

/-- Rows of unit 2, WR (rule R74). -/
def rowsWr : List Row :=
  [ ⟨"WR.INIT", 0x20000000#32, 0xFF8FFFFF#32⟩,
    ⟨"WR.BIT", 0x21000000#32, 0xFF8FFFFF#32⟩,
    ⟨"WR.U8", 0x22000000#32, 0xFF8FFFFF#32⟩,
    ⟨"WR.U16", 0x23000000#32, 0xFF8FFFFF#32⟩,
    ⟨"WR.U32", 0x24000000#32, 0xFF8FFFFF#32⟩,
    ⟨"WR.U64", 0x25000000#32, 0xFF8FFFFF#32⟩,
    ⟨"WR.V", 0x26000000#32, 0xFFCFFFFF#32⟩,
    ⟨"WR.PAD", 0x27000000#32, 0xFFFFFFFF#32⟩,
    ⟨"WR.POS", 0x28000000#32, 0xFF8FFFFF#32⟩,
    ⟨"WR.LEN", 0x29000000#32, 0xFF8FFFFF#32⟩,
    ⟨"WR.GETB", 0x2A000000#32, 0xFF88FFFF#32⟩ ]

/-- Rows of unit 3, RD (rule R74). -/
def rowsRd : List Row :=
  [ ⟨"RD.INIT", 0x30000000#32, 0xFFFFFFFF#32⟩,
    ⟨"RD.PUTB", 0x31000000#32, 0xFF8FFFFF#32⟩,
    ⟨"RD.LDW", 0x32000000#32, 0xFFFFFFFF#32⟩,
    ⟨"RD.BIT", 0x33000000#32, 0xFF8FFFFF#32⟩,
    ⟨"RD.U8", 0x34000000#32, 0xFF8FFFFF#32⟩,
    ⟨"RD.U16", 0x35000000#32, 0xFF8FFFFF#32⟩,
    ⟨"RD.I16", 0x36000000#32, 0xFF8FFFFF#32⟩,
    ⟨"RD.U32", 0x37000000#32, 0xFF8FFFFF#32⟩,
    ⟨"RD.I32", 0x38000000#32, 0xFF8FFFFF#32⟩,
    ⟨"RD.U64", 0x39000000#32, 0xFF8FFFFF#32⟩,
    ⟨"RD.V", 0x3A000000#32, 0xFFCFF000#32⟩,
    ⟨"RD.PAD", 0x3B000000#32, 0xFFFFFFFF#32⟩,
    ⟨"RD.POS", 0x3C000000#32, 0xFF8FFFFF#32⟩,
    ⟨"RD.LEN", 0x3D000000#32, 0xFF8FFFFF#32⟩ ]

/-- Rows of unit 4, SEQ (rule R74). -/
def rowsSeq : List Row :=
  [ ⟨"SEQ.CMP", 0x40000000#32, 0xFF888FFF#32⟩,
    ⟨"SEQ.DIF", 0x41000000#32, 0xFF888FFF#32⟩,
    ⟨"SEQ.ADD", 0x42000000#32, 0xFF888FFF#32⟩,
    ⟨"SEQ.SUB", 0x43000000#32, 0xFF888FFF#32⟩ ]

/-- Rows of unit 5, ACK (rule R74). -/
def rowsAck : List Row :=
  [ ⟨"ACK.INIT", 0x50000000#32, 0xFF8FF000#32⟩,
    ⟨"ACK.RX", 0x51000000#32, 0xFF8FFFFF#32⟩,
    ⟨"ACK.HWM", 0x52000000#32, 0xFF8FFFFF#32⟩,
    ⟨"ACK.WIN", 0x53000000#32, 0xFFCFFFFF#32⟩,
    ⟨"ACK.ISRX", 0x54000000#32, 0xFF88FFFF#32⟩ ]

/-- The opcode table of rule R74: 52 rows. -/
def opcodeTable : List Row := rowsSys ++ rowsBv ++ rowsWr ++ rowsRd ++ rowsSeq ++ rowsAck

/-- The command the decoder reads from a word numbered as spec/opcode_table.json numbers its bits: a command is one
32-bit word, bit 0 its least significant (rules R71 and R79), so bits of the row above `nbits` are zero and a row
wider than a command word is refused. -/
def decodeTableWord (nbits w : Nat) : Option Instr :=
  if nbits ≤ 32 then (decode (BitVec.ofNat 32 (w % 2 ^ nbits))).toOption else none

end Sys2Proof
end

