-- ==== Sys2Proof/Machine/Fetch.lean ====
section
/-! DEFINITION. Taking the next transaction from the host (rule R70 of spec/30_encoding.md) and performing a word that
spells no command (rule R75). -/

namespace Sys2Proof.Machine

open Sys2Proof

/-- The state in which a transaction's command is performed: its `DIN` on the port, the later transactions still with
the host (rules R22 and R70). -/
def State.present (s : State) (t : Transaction) (later : List Transaction) : State :=
  { s with din := t.din, pending := later }

/-- Performing an illegal word raises IllegalCommand, whatever makes it illegal (rule R75). -/
def execIllegal (_why : IllegalWord) (s : State) : Out := raise .illegalCommand s

/-- The host's list with the command word of the next transaction replaced (its `DIN` and the later transactions
kept); a lone transaction with `DIN = 0` when the host has none. -/
def placeWord (cw : CmdWord) : List Transaction → List Transaction
  | [] => [{ cw := cw, din := 0 }]
  | t :: ts => { t with cw := cw } :: ts

end Sys2Proof.Machine
end

