-- ==== Sys2Proof/Machine/Step.lean ====
section
/-! DEFINITION. One step: the next transaction of the host is performed completely and answered (rules R59 and R70).
With no transaction pending the block is idle and holds its state (rules R206 and R209; assumption log 4). -/

namespace Sys2Proof.Machine

open Sys2Proof

def step (s : State) : Host.Outcome State Fault Refusal :=
  match s.pending with
  | [] => .next s
  | t :: later =>
    match decode t.cw with
    | .ok i => exec i (s.present t later)
    | .error why => execIllegal why (s.present t later)

/-- `s` with the word `w` (of `nbits` bits, the bits above them zero) as the command word of the next transaction. -/
def State.withFetchWord (s : State) (nbits w : Nat) : State :=
  { s with pending := placeWord (BitVec.ofNat 32 (w % 2 ^ nbits)) s.pending }

end Sys2Proof.Machine
end

