-- ==== Sys2Proof/Safety.lean ====
section
/-! DEFINITION. The terms the statements use: the invariant of rule R28, what a command leaves unchanged, what it means
that a command completes or raises a fault, and the tables of rules R75 and R201. -/

namespace Sys2Proof

/-! ## Families of commands -/

/-- The write commands of rule R130 and `WR.PAD`. -/
def Instr.appends : Instr → Bool
  | .wrBit _ | .wrU8 _ | .wrU16 _ | .wrU32 _ | .wrU64 _ | .wrV _ | .wrPad => true
  | _ => false

/-- The read commands of rule R150 and `RD.PAD`. -/
def Instr.consumes : Instr → Bool
  | .rdBit _ | .rdU8 _ | .rdU16 _ | .rdI16 _ | .rdU32 _ | .rdI32 _ | .rdU64 _ | .rdV _ _ | .rdPad => true
  | _ => false

/-- The family of a command, the unit nibble `op[7:4]` of rules R71 and R74: 0 SYS, 1 BV, 2 WR, 3 RD, 4 SEQ, 5 ACK. -/
def Instr.unit : Instr → Nat
  | .nop | .li _ _ | .movi _ | .movo _ | .getf _ | .clrf | .srst => 0
  | .bvNew _ _ | .bvSeti _ _ | .bvClri _ _ | .bvTsti _ _ _ | .bvSet _ _ | .bvClr _ _ | .bvTst _ _ _ | .bvShli _ _
  | .bvShl _ _ | .bvClra _ | .bvLen _ _ => 1
  | .wrInit _ | .wrBit _ | .wrU8 _ | .wrU16 _ | .wrU32 _ | .wrU64 _ | .wrV _ | .wrPad | .wrPos _ | .wrLen _
  | .wrGetb _ _ => 2
  | .rdInit | .rdPutb _ | .rdLdw | .rdBit _ | .rdU8 _ | .rdU16 _ | .rdI16 _ | .rdU32 _ | .rdI32 _ | .rdU64 _
  | .rdV _ _ | .rdPad | .rdPos _ | .rdLen _ => 3
  | .seqCmp _ _ _ | .seqDif _ _ _ | .seqAdd _ _ _ | .seqSub _ _ _ => 4
  | .ackInit _ _ | .ackRx _ | .ackHwm _ | .ackWin _ | .ackIsrx _ _ => 5

/-- The vector register a command's Vd field names. -/
def Instr.vDest : Instr → Option VReg
  | .bvNew a _ | .bvSeti a _ | .bvClri a _ | .bvSet a _ | .bvClr a _ | .bvShli a _ | .bvShl a _ | .bvClra a
  | .rdV a _ | .ackWin a => some a
  | _ => none

end Sys2Proof

namespace Sys2Proof.Machine

open Sys2Proof

/-! ## Invariants -/

/-- Rule R28 of spec/10_state.md, items 1 to 5 (item 6 and the range of `AHWM` hold by type, and `len(VB[i]) = VN[i]`,
`len(AWIN) = AW` because a capacity is a length). -/
structure State.Inv (s : State) : Prop where
  wcap_le : s.wcap ≤ s.cfg.bufmax
  wbuf_lt : ∀ c ∈ s.wbuf, c.1 < s.wcap
  wpos_le : s.wpos ≤ 8 * s.wcap
  tail_zero : ∀ p, s.wpos ≤ p → Memory.bit s.wbuf p = false
  rlen_le : s.rlen ≤ s.cfg.bufmax
  rbuf_lt : ∀ c ∈ s.rbuf, c.1 < s.rlen
  rpos_le : s.rpos ≤ 8 * s.rlen
  vn_le : ∀ r, s.getVN r ≤ s.cfg.vmax
  aw_le : s.aw ≤ s.cfg.vmax

/-- Both buffer spaces are in the model's canonical form (assumption log 5). -/
def State.Canonical (s : State) : Prop := Memory.wf s.wbuf = true ∧ Memory.wf s.rbuf = true

/-! ## What a command leaves unchanged -/

def SameX (s t : State) : Prop := ∀ r, t.getX r = s.getX r

def SameV (s t : State) : Prop := ∀ r, t.getV r = s.getV r

/-- Capacity, position and every byte of the writer's buffer. -/
def SameWriter (s t : State) : Prop :=
  t.wcap = s.wcap ∧ t.wpos = s.wpos ∧ ∀ q, Memory.read t.wbuf q = Memory.read s.wbuf q

/-- Every byte of the reader's input and its length (not its position). -/
def SameInput (s t : State) : Prop := t.rlen = s.rlen ∧ ∀ q, Memory.read t.rbuf q = Memory.read s.rbuf q

/-- Length, position and every byte of the reader's input. -/
def SameReader (s t : State) : Prop := SameInput s t ∧ t.rpos = s.rpos

def SameTracker (s t : State) : Prop := t.ahwm = s.ahwm ∧ t.awin = s.awin

/-- Everything but the general registers. -/
def SameButX (s t : State) : Prop :=
  SameV s t ∧ SameWriter s t ∧ SameReader s t ∧ SameTracker s t ∧ t.fsr = s.fsr

/-- Only general register `d` may change. -/
def OnlyX (d : XReg) (s t : State) : Prop := (∀ r, r ≠ d → t.getX r = s.getX r) ∧ SameButX s t

/-- Only vector register `d` may change. -/
def OnlyV (d : VReg) (s t : State) : Prop :=
  (∀ r, r ≠ d → t.getV r = s.getV r) ∧ SameX s t ∧ SameWriter s t ∧ SameReader s t ∧ SameTracker s t ∧
    t.fsr = s.fsr

/-- Only the writer may change. -/
def OnlyWriter (s t : State) : Prop :=
  SameX s t ∧ SameV s t ∧ SameReader s t ∧ SameTracker s t ∧ t.fsr = s.fsr

/-- Only the reader may change. -/
def OnlyReader (s t : State) : Prop :=
  SameX s t ∧ SameV s t ∧ SameWriter s t ∧ SameTracker s t ∧ t.fsr = s.fsr

/-- Only the tracker may change. -/
def OnlyTracker (s t : State) : Prop :=
  SameX s t ∧ SameV s t ∧ SameWriter s t ∧ SameReader s t ∧ t.fsr = s.fsr

/-- Everything but `FSR`. -/
def OnlyFsr (s t : State) : Prop :=
  SameX s t ∧ SameV s t ∧ SameWriter s t ∧ SameReader s t ∧ SameTracker s t

/-- Nothing of the block's state changes. -/
def NoChange (s t : State) : Prop := OnlyFsr s t ∧ t.fsr = s.fsr

/-! ## Being spelled, completing and raising -/

/-- A command's encoding: the word with that opcode, register fields and immediate, every other bit 0, decodes to it
(rules R71 to R74). -/
def EncodedAs (op a b c imm : Nat) (i : Instr) : Prop := decode (wordOf op a b c imm) = .ok i

/-- The command gives exactly one response, and the parameters and the host's side of the port stay. -/
def Responds (s t : State) (st : Status) (dout : Word) : Prop :=
  t.responses = s.responses ++ [⟨st, dout⟩] ∧ t.cfg = s.cfg ∧ t.din = s.din ∧ t.pending = s.pending

/-- The command answers a next state, with `ST = 0` and `DOUT = 0`, in which `P` holds. -/
def Completes (i : Instr) (s : State) (P : State → Prop) : Prop :=
  ∃ t, exec i s = .next t ∧ Responds s t .ok 0 ∧ P t

/-- What fault `k` leaves (rule R203): its `FSR` bit (index code minus 1, rule R200) set, the response `(k, 0)`, and
nothing else changed. -/
def FaultEntered (k : FaultKind) (s t : State) : Prop :=
  t.fsr = s.fsr ||| (1#4 <<< ((match k with
    | .capacityError => 1
    | .formatError => 2
    | .illegalCommand => 3
    | .operandError => 4) - 1)) ∧ Responds s t (.fault k) 0 ∧ OnlyFsr s t

/-- The command raises fault `k`. -/
def Raises (i : Instr) (s : State) (k : FaultKind) : Prop := ∃ t, exec i s = .next t ∧ FaultEntered k s t

/-- Performing the commands in turn leads from one state to another. -/
def Performs : List Instr → State → State → Prop
  | [], s, t => t = s
  | i :: is, s, t => ∃ u, exec i s = .next u ∧ Performs is u t

/-! ## Shapes of results -/

/-- In vector register `a` the bit at index `i` is `b`; every other bit and the capacity are as before. -/
def BitReplaced (a : VReg) (i : Nat) (b : Bool) (s t : State) : Prop :=
  t.getVN a = s.getVN a ∧ bitAt (t.getV a) i = b ∧ (∀ j, j ≠ i → bitAt (t.getV a) j = bitAt (s.getV a) j) ∧
    OnlyV a s t

/-- Vector register `a` is shifted left by `k` (rule R117). -/
def Shifted (a : VReg) (k : Nat) (s t : State) : Prop :=
  t.getVN a = s.getVN a ∧
    (∀ j, j < s.getVN a → bitAt (t.getV a) j = if k ≤ j then bitAt (s.getV a) (j - k) else false) ∧ OnlyV a s t

/-- `n` bits `f 0, ..., f (n-1)` are appended to the writer (rule R130): exactly the positions `WPOS .. WPOS+n-1` are
replaced, every byte outside them is kept, and nothing but the writer changes. -/
def Appended (n : Nat) (f : Nat → Bool) (s t : State) : Prop :=
  t.wcap = s.wcap ∧ t.wpos = s.wpos + n ∧
    (∀ p, Memory.bit t.wbuf p = if s.wpos ≤ p ∧ p < s.wpos + n then f (p - s.wpos) else Memory.bit s.wbuf p) ∧
    (∀ q, q < s.wpos / 8 ∨ ceil8 (s.wpos + n) ≤ q → Memory.read t.wbuf q = Memory.read s.wbuf q) ∧ OnlyWriter s t

/-- `n` bits are consumed from the reader (rule R150) and its input is kept. -/
def Consumed (n : Nat) (s t : State) : Prop := t.rpos = s.rpos + n ∧ SameInput s t

/-- Nothing but the reader and general register `d` changes. -/
def OnlyReaderAndX (d : XReg) (s t : State) : Prop :=
  (∀ r, r ≠ d → t.getX r = s.getX r) ∧ SameV s t ∧ SameWriter s t ∧ SameTracker s t ∧ t.fsr = s.fsr

/-- Nothing but the reader and vector register `d` changes. -/
def OnlyReaderAndV (d : VReg) (s t : State) : Prop :=
  (∀ r, r ≠ d → t.getV r = s.getV r) ∧ SameX s t ∧ SameWriter s t ∧ SameTracker s t ∧ t.fsr = s.fsr

/-- The circular distance `(p - q) mod 65536` of the sequence numbers in two registers (rules R10 and R170). -/
def distance (p q : Word) : Nat := (p.toNat % 65536 + 65536 - q.toNat % 65536) % 65536

/-- `SEQ.CMP` gives +1 for the sequence numbers `p` and `q`, whatever registers hold them (rule R175). -/
def Newer (p q : SeqNo) : Prop :=
  ∀ (a b c : XReg) (s : State), seqOf (s.getX b) = p → seqOf (s.getX c) = q →
    Completes (.seqCmp a b c) s fun t => t.getX a = 1

/-- The tracker knows a sequence number as received: what `ACK.ISRX` answers (rule R184). -/
def State.knows (s : State) (q : SeqNo) : Bool := knownReceived s.ahwm s.awin q

/-! ## Tables -/

/-- The opcodes of rule R74. -/
def definedOps : List Nat :=
  [0x00, 0x01, 0x02, 0x03, 0x04, 0x05, 0x06] ++
  [0x10, 0x11, 0x12, 0x13, 0x14, 0x15, 0x16, 0x17, 0x18, 0x19, 0x1A] ++
  [0x20, 0x21, 0x22, 0x23, 0x24, 0x25, 0x26, 0x27, 0x28, 0x29, 0x2A] ++
  [0x30, 0x31, 0x32, 0x33, 0x34, 0x35, 0x36, 0x37, 0x38, 0x39, 0x3A, 0x3B, 0x3C, 0x3D] ++
  [0x40, 0x41, 0x42, 0x43] ++ [0x50, 0x51, 0x52, 0x53, 0x54]

/-- The opcodes whose format does not use field `a`: format `Z` (rules R72 and R74). -/
def opsWithoutA : List Nat := [0x00, 0x05, 0x06, 0x27, 0x30, 0x32, 0x3B]

/-- The opcodes whose format uses field `b`: formats `AB`, `ABC`, `ABI`. -/
def opsWithB : List Nat :=
  [0x13, 0x14, 0x15, 0x16, 0x18, 0x1A, 0x2A, 0x40, 0x41, 0x42, 0x43, 0x54]

/-- The opcodes whose format uses field `c`: format `ABC`. -/
def opsWithC : List Nat := [0x16, 0x40, 0x41, 0x42, 0x43]

/-- The opcodes whose format uses `imm12`: formats `AI`, `ABI`. -/
def opsWithImm : List Nat := [0x01, 0x10, 0x11, 0x12, 0x13, 0x17, 0x3A, 0x50]

/-- The opcodes whose field `a` is of kind `V` (rules R73 and R74). -/
def opsWithVectorA : List Nat := [0x10, 0x11, 0x12, 0x14, 0x15, 0x17, 0x18, 0x19, 0x26, 0x3A, 0x53]

/-- The opcodes whose field `b` is of kind `V`; no field `c` is. -/
def opsWithVectorB : List Nat := [0x13, 0x16, 0x1A]

/-- The four items of rule R75, in order. -/
def IllegalByItems (w : CmdWord) : Prop :=
  let op := opOf w
  op ∉ definedOps ∨
  op ∈ definedOps ∧ (w.getLsbD 23 ∨ w.getLsbD 19 ∨ w.getLsbD 15) ∨
  op ∈ definedOps ∧ (op ∈ opsWithoutA ∧ field w 20 3 ≠ 0 ∨ op ∉ opsWithB ∧ field w 16 3 ≠ 0 ∨
    op ∉ opsWithC ∧ field w 12 3 ≠ 0 ∨ op ∉ opsWithImm ∧ field w 0 12 ≠ 0) ∨
  op ∈ definedOps ∧ (op ∈ opsWithVectorA ∧ w.getLsbD 22 ∨ op ∈ opsWithVectorB ∧ w.getLsbD 18)

/-- The fault a command raises in a state, by the table of rule R201 with the priority of rule R202. -/
def faultOf (i : Instr) (s : State) : Option FaultKind :=
  let operand (c : Bool) : Option FaultKind := if c then some .operandError else none
  let capacity (n : Nat) : Option FaultKind := if 8 * s.wcap < s.wpos + n then some .capacityError else none
  let format (n : Nat) : Option FaultKind := if 8 * s.rlen < s.rpos + n then some .formatError else none
  match i with
  | .bvNew _ n => operand (s.cfg.vmax < n)
  | .bvSeti d i | .bvClri d i => operand (s.getVN d ≤ i)
  | .bvTsti _ b i => operand (s.getVN b ≤ i)
  | .bvSet d i | .bvClr d i => operand (s.getVN d ≤ (s.getX i).toNat)
  | .bvTst _ b i => operand (s.getVN b ≤ (s.getX i).toNat)
  | .wrInit a => operand (s.cfg.bufmax < (s.getX a).toNat)
  | .wrBit _ => capacity 1
  | .wrU8 _ => capacity 8
  | .wrU16 _ => capacity 16
  | .wrU32 _ => capacity 32
  | .wrU64 _ => capacity 64
  | .wrV b => capacity (s.getVN b)
  | .wrGetb _ i => operand (ceil8 s.wpos ≤ (s.getX i).toNat)
  | .rdPutb _ => operand (s.cfg.bufmax ≤ s.rlen)
  | .rdBit _ => format 1
  | .rdU8 _ => format 8
  | .rdU16 _ => format 16
  | .rdI16 _ => format 16
  | .rdU32 _ => format 32
  | .rdI32 _ => format 32
  | .rdU64 _ => format 64
  | .rdV _ n => if s.cfg.vmax < n then some .operandError else format n
  | .ackInit _ n => operand (s.cfg.vmax < n)
  | .nop | .li _ _ | .movi _ | .movo _ | .getf _ | .clrf | .srst | .bvShli _ _ | .bvShl _ _ | .bvClra _ | .bvLen _ _
  | .wrPad | .wrPos _ | .wrLen _ | .rdInit | .rdLdw | .rdPad | .rdPos _ | .rdLen _ | .seqCmp _ _ _ | .seqDif _ _ _
  | .seqAdd _ _ _ | .seqSub _ _ _ | .ackRx _ | .ackHwm _ | .ackWin _ | .ackIsrx _ _ => none

/-- The status of a response with that fault. -/
def statusOf : Option FaultKind → Status
  | none => .ok
  | some k => .fault k

end Sys2Proof.Machine
end

