-- ==== Sys2Proof/Certificates/Slice0/Obligations.lean ====
section
/-! DEFINITION. The statements about the LCB, file by file of spec/. What they say of the response and of the model's own
fields (parameters, `DIN`, pending transactions) is in the form of assumption log 2, the model's choice. -/

open Sys2Proof Sys2Proof.Machine

/-! ## spec/30_encoding.md -/

/-- Decode and encode agree on every well-formed command, with every operand at every value its field admits
(rules R71 to R74). -/
def Obligations.DecodeInvertsEncode : Prop :=
  ∀ i : Instr, i.wf = true → decode (encode i) = .ok i

/-- Every legal word has one spelling: the word of the well-formed command it decodes to (rules R71 to R76). -/
def Obligations.EncodeInvertsDecode : Prop :=
  ∀ (w : CmdWord) (i : Instr), decode w = .ok i → i.wf = true ∧ encode i = w

/-- Rule R76: a word spells a command exactly when it matches its row under the row's mask; `match` is an opcode in
bits 31:24, the mask covers the opcode and the reserved bits; at most one row matches, and when none does the word is
refused. -/
def Obligations.WordSpellsCommandIffRowMatches : Prop :=
  (∀ row ∈ opcodeTable, ∀ w : CmdWord,
    (∃ i, decode w = .ok i ∧ i.mnemonic = row.mnemonic) ↔ w &&& row.mask = row.pattern) ∧
  (∀ row ∈ opcodeTable, row.pattern &&& 0x00FFFFFF#32 = 0 ∧ row.mask &&& 0xFF888000#32 = 0xFF888000#32) ∧
  (∀ w : CmdWord, ∀ r₁ ∈ opcodeTable, ∀ r₂ ∈ opcodeTable,
    w &&& r₁.mask = r₁.pattern → w &&& r₂.mask = r₂.pattern → r₁ = r₂) ∧
  (∀ w : CmdWord, (∀ row ∈ opcodeTable, w &&& row.mask ≠ row.pattern) → ∃ why, decode w = .error why)

/-- Rule R75: the illegal words are exactly the four kinds it lists, and performing one raises IllegalCommand and
changes nothing else. -/
def Obligations.IllegalWordsAreTheFourKindsAndRaise : Prop :=
  (∀ w : CmdWord, (∃ why, decode w = .error why) ↔ IllegalByItems w) ∧
  (∀ (s : State) (t : Transaction) (later : List Transaction), s.pending = t :: later → IllegalByItems t.cw →
    ∃ s', step s = .next s' ∧ FaultEntered .illegalCommand (s.present t later) s')

/-- Words written out from the encodings of rules R74 and R77, one or more of each unit. -/
def Obligations.SampleWordsDecode : Prop :=
  decode 0x01100005#32 = .ok (.li 1 5) ∧ decode 0x13210003#32 = .ok (.bvTsti 2 1 3) ∧
  decode 0x2A020000#32 = .ok (.wrGetb 0 2) ∧ decode 0x27000000#32 = .ok .wrPad ∧
  decode 0x3A100004#32 = .ok (.rdV 1 4) ∧ decode 0x40012000#32 = .ok (.seqCmp 0 1 2) ∧
  decode 0x54310000#32 = .ok (.ackIsrx 3 1)

/-! ## The machine -/

/-- A step with a transaction pending performs the command its word decodes to, with its `DIN` on the port and the
later transactions left with the host (rules R59 and R70). -/
def Obligations.StepRunsTheDecodedCommand : Prop :=
  ∀ (s : State) (t : Transaction) (later : List Transaction) (i : Instr),
    s.pending = t :: later → decode t.cw = .ok i → step s = exec i { s with din := t.din, pending := later }

/-- The MODEL'S choice (assumption log 4, deduced from rules R206 and R209): with no transaction pending a step leaves
the state as it is. -/
def Obligations.IdleStepHoldsTheState : Prop :=
  ∀ s : State, s.pending = [] → step s = .next s

/-- From every state that satisfies rule R28 a step answers: the transaction is taken and exactly one response given
(rules R70 and R239: no command can hang). -/
def Obligations.EveryTransactionIsAnswered : Prop :=
  ∀ (s : State) (t : Transaction) (later : List Transaction), s.Inv → s.pending = t :: later →
    ∃ s' r, step s = .next s' ∧ s'.pending = later ∧ s'.cfg = s.cfg ∧ s'.responses = s.responses ++ [r]

/-- The reset values of rule R29, for any parameters, after the reset event and after `SRST`. -/
def Obligations.ResetValues : Prop :=
  ∀ c : Config, let s := State.resetWith c
    (∀ r, s.getX r = 0) ∧ (∀ r, s.getVN r = 0 ∧ s.getV r = []) ∧
    s.wcap = 0 ∧ s.wpos = 0 ∧ s.wbuf = [] ∧ s.rlen = 0 ∧ s.rpos = 0 ∧ s.rbuf = [] ∧
    s.aw = 0 ∧ s.ahwm = 0 ∧ s.awin = [] ∧ s.fsr = 0 ∧
    ∀ s' : State, s'.cfg = c → Completes .srst s' fun t => { t with din := 0, pending := [], responses := [] } = s

/-- The invariant of rule R28 holds at reset, for any parameters. -/
def Obligations.ResetSatisfiesInvariant : Prop :=
  ∀ c : Config, (State.resetWith c).Inv

/-- The invariant of rule R28 holds at reset and is kept by every step, faulting or not, from every state that has it. -/
def Obligations.EveryStepKeepsInvariant : Prop :=
  State.reset.Inv ∧ ∀ s s' : State, s.Inv → step s = .next s' → s'.Inv

/-- The MODEL'S choice (assumption log 5): both buffer spaces stay in the canonical form. -/
def Obligations.EveryStepKeepsCanonicalMemory : Prop :=
  State.reset.Canonical ∧ ∀ s s' : State, s.Canonical → step s = .next s' → s'.Canonical

/-- Rule R30, what a command of each family leaves unchanged among the vectors, the writer, the reader and the tracker,
whether it succeeds or faults: SYS but `SRST` leaves all four; BV may write the vectors; WR the writer; RD the vectors
and the reader; SEQ leaves all four; ACK may write the vectors and the tracker. Left out: the general registers, which
every family may write; and `FSR`, but for SEQ, which leaves it. SYS writes `FSR` (`CLRF`), and for BV, WR, RD and ACK
faulting commands are included, which write `FSR`; that a successful one leaves `FSR` is said in the statement of each
command. -/
def Obligations.FamiliesWriteOnlyTheirState : Prop :=
  ∀ (i : Instr) (s t : State), exec i s = .next t →
    (i.unit = 0 → i ≠ .srst → SameV s t ∧ SameWriter s t ∧ SameReader s t ∧ SameTracker s t) ∧
    (i.unit = 1 → SameWriter s t ∧ SameReader s t ∧ SameTracker s t) ∧
    (i.unit = 2 → SameV s t ∧ SameReader s t ∧ SameTracker s t) ∧
    (i.unit = 3 → SameWriter s t ∧ SameTracker s t) ∧
    (i.unit = 4 → SameButX s t) ∧
    (i.unit = 5 → SameWriter s t ∧ SameReader s t)

/-- Every command gives exactly one response and keeps the parameters and the host's side of the port; `DOUT` is not
zero only in the response of a successful `MOVO` (rule R70). -/
def Obligations.OneResponseAndDoutOnlyFromMovo : Prop :=
  ∀ (i : Instr) (s t : State), exec i s = .next t →
    ∃ st dout, Responds s t st dout ∧ (dout ≠ 0 → ∃ a, i = .movo a ∧ st = .ok ∧ dout = s.getX a)

/-- The status codes of rules R70 and R200: 0 to 4 and no other; the `FSR` bit a fault sets has the code minus 1 as its
index. -/
def Obligations.StatusCodesAndFsrBits : Prop :=
  Status.code .ok = 0 ∧ Status.code (.fault .capacityError) = 1 ∧ Status.code (.fault .formatError) = 2 ∧
  Status.code (.fault .illegalCommand) = 3 ∧ Status.code (.fault .operandError) = 4 ∧
  (∀ st : Status, (Status.code st).toNat ≤ 4) ∧
  ∀ (s : State) (k : FaultKind) (j : Nat), (s.takeFault k).fsr.getLsbD j =
    (s.fsr.getLsbD j || decide (j + 1 = (Status.code (.fault k)).toNat))

/-- No command's result depends on `FSR`, but for `GETF`, which reads it (rule R23): with any other `FSR` every other
command gives the same response and the same state but for `FSR`. -/
def Obligations.FsrInfluencesNoResult : Prop :=
  ∀ (i : Instr) (s t : State) (f : BitVec 4), (∀ a, i ≠ .getf a) → exec i s = .next t →
    ∃ g, exec i { s with fsr := f } = .next { t with fsr := g }

/-! ## spec/40_sys.md -/

/-- `NOP` does nothing (rule R100); `CLRF` clears all four bits of `FSR` and nothing else (rule R105). -/
def Obligations.NopChangesNothingAndClrfOnlyFsr : Prop :=
  EncodedAs 0x00 0 0 0 0 .nop ∧ EncodedAs 0x05 0 0 0 0 .clrf ∧
  ∀ s : State, (Completes .nop s fun t => NoChange s t) ∧ (Completes .clrf s fun t => t.fsr = 0 ∧ OnlyFsr s t)

/-- `LI` loads the zero-extended immediate and changes nothing but the destination (rule R101). -/
def Obligations.LiLoadsTheImmediate : Prop :=
  ∀ (a : XReg) (imm : Nat) (s : State), imm < 4096 →
    EncodedAs 0x01 a 0 0 imm (.li a imm) ∧ Completes (.li a imm) s fun t => (t.getX a).toNat = imm ∧ OnlyX a s t

/-- `MOVI` loads the transaction's data word and changes nothing but the destination; it is the only command that reads
`DIN`: with any other data word every other command does the same (rule R102). -/
def Obligations.MoviAloneLoadsDin : Prop :=
  (∀ (a : XReg) (s : State),
    EncodedAs 0x02 a 0 0 0 (.movi a) ∧ Completes (.movi a) s fun t => t.getX a = s.din ∧ OnlyX a s t) ∧
  (∀ (i : Instr) (s t : State) (d : Word), (∀ a, i ≠ .movi a) → exec i s = .next t →
    exec i { s with din := d } = .next { t with din := d })

/-- `MOVO` answers the register in `DOUT` and changes nothing; no other command answers a `DOUT` that is not zero
(rule R103). -/
def Obligations.MovoAloneAnswersDout : Prop :=
  (∀ (a : XReg) (s : State), EncodedAs 0x03 a 0 0 0 (.movo a) ∧
    ∃ t, exec (.movo a) s = .next t ∧ Responds s t .ok (s.getX a) ∧ NoChange s t) ∧
  (∀ (i : Instr) (s t : State) (st : Status) (dout : Word), exec i s = .next t →
    t.responses = s.responses ++ [⟨st, dout⟩] → dout ≠ 0 → ∃ a, i = .movo a)

/-- `GETF` reads `FSR` zero-extended and does not change it (rule R104). -/
def Obligations.GetfReadsFsr : Prop :=
  ∀ (a : XReg) (s : State), EncodedAs 0x04 a 0 0 0 (.getf a) ∧ Completes (.getf a) s fun t =>
    (∀ j, (t.getX a).getLsbD j = if j < 4 then s.fsr.getLsbD j else false) ∧ OnlyX a s t

/-- `SRST` gives exactly the reset state of rule R29 from any state (rules R106 and R231), and answers `ST = 0`,
`DOUT = 0`. -/
def Obligations.SrstGivesTheResetState : Prop :=
  EncodedAs 0x06 0 0 0 0 .srst ∧ ∀ s : State, Completes .srst s fun t =>
    (∀ r, t.getX r = 0) ∧ (∀ r, t.getVN r = 0 ∧ t.getV r = []) ∧
    t.wcap = 0 ∧ t.wpos = 0 ∧ t.wbuf = [] ∧ t.rlen = 0 ∧ t.rpos = 0 ∧ t.rbuf = [] ∧
    t.aw = 0 ∧ t.ahwm = 0 ∧ t.awin = [] ∧ t.fsr = 0 ∧
    { t with din := 0, pending := [], responses := [] } = State.resetWith s.cfg

/-! ## spec/41_bitvector.md -/

/-- `BV.NEW` creates an all-clear vector of the given capacity, or raises OperandError above `VMAX` (rule R110). -/
def Obligations.BvNewCreatesAClearVector : Prop :=
  ∀ (a : VReg) (imm : Nat) (s : State),
    (imm < 4096 → EncodedAs 0x10 a 0 0 imm (.bvNew a imm)) ∧
    (imm ≤ s.cfg.vmax → Completes (.bvNew a imm) s fun t =>
      t.getVN a = imm ∧ (∀ j, bitAt (t.getV a) j = false) ∧ OnlyV a s t) ∧
    (s.cfg.vmax < imm → Raises (.bvNew a imm) s .operandError)

/-- `BV.SETI` and `BV.CLRI` replace the bit at an immediate index, or raise OperandError at or beyond the capacity
(rules R111 and R112). -/
def Obligations.BvSetiClriReplaceOneBit : Prop :=
  ∀ (a : VReg) (imm : Nat) (s : State),
    (imm < 4096 → EncodedAs 0x11 a 0 0 imm (.bvSeti a imm) ∧ EncodedAs 0x12 a 0 0 imm (.bvClri a imm)) ∧
    (imm < s.getVN a → Completes (.bvSeti a imm) s (BitReplaced a imm true s) ∧
      Completes (.bvClri a imm) s (BitReplaced a imm false s)) ∧
    (s.getVN a ≤ imm → Raises (.bvSeti a imm) s .operandError ∧ Raises (.bvClri a imm) s .operandError)

/-- `BV.SET` and `BV.CLR` replace the bit at the index in a register, all 64 bits unsigned, or raise OperandError
(rules R114 and R115). -/
def Obligations.BvSetClrReplaceOneBit : Prop :=
  ∀ (a : VReg) (b : XReg) (s : State),
    EncodedAs 0x14 a b 0 0 (.bvSet a b) ∧ EncodedAs 0x15 a b 0 0 (.bvClr a b) ∧
    ((s.getX b).toNat < s.getVN a →
      Completes (.bvSet a b) s (BitReplaced a (s.getX b).toNat true s) ∧
      Completes (.bvClr a b) s (BitReplaced a (s.getX b).toNat false s)) ∧
    (s.getVN a ≤ (s.getX b).toNat → Raises (.bvSet a b) s .operandError ∧ Raises (.bvClr a b) s .operandError)

/-- `BV.TSTI` and `BV.TST` give exactly 0 or 1, the bit at the index, or raise OperandError (rules R113 and R116); the
index register may be the destination. -/
def Obligations.BvTestsReadOneBit : Prop :=
  (∀ (a : XReg) (b : VReg) (imm : Nat) (s : State),
    (imm < 4096 → EncodedAs 0x13 a b 0 imm (.bvTsti a b imm)) ∧
    (imm < s.getVN b → Completes (.bvTsti a b imm) s fun t =>
      t.getX a = (if bitAt (s.getV b) imm then 1 else 0) ∧ OnlyX a s t) ∧
    (s.getVN b ≤ imm → Raises (.bvTsti a b imm) s .operandError)) ∧
  (∀ (a : XReg) (b : VReg) (c : XReg) (s : State),
    EncodedAs 0x16 a b c 0 (.bvTst a b c) ∧
    ((s.getX c).toNat < s.getVN b → Completes (.bvTst a b c) s fun t =>
      t.getX a = (if bitAt (s.getV b) (s.getX c).toNat then 1 else 0) ∧ OnlyX a s t) ∧
    (s.getVN b ≤ (s.getX c).toNat → Raises (.bvTst a b c) s .operandError))

/-- `BV.SHLI` and `BV.SHL` shift left by any amount without fault; an amount of `VN` or more clears every bit
(rules R117 and R118). -/
def Obligations.BvShiftsMoveBitsUp : Prop :=
  ∀ (a : VReg) (s : State),
    (∀ k, k < 4096 → EncodedAs 0x17 a 0 0 k (.bvShli a k)) ∧
    (∀ k, Completes (.bvShli a k) s (Shifted a k s)) ∧
    (∀ b : XReg, EncodedAs 0x18 a b 0 0 (.bvShl a b) ∧ Completes (.bvShl a b) s (Shifted a (s.getX b).toNat s))

/-- `BV.CLRA` clears every bit and keeps the capacity (rule R119); `BV.LEN` gives the capacity (rule R120), in the states
of rule R28. -/
def Obligations.BvClraClearsAndLenReadsTheCapacity : Prop :=
  (∀ (a : VReg) (s : State), EncodedAs 0x19 a 0 0 0 (.bvClra a) ∧ Completes (.bvClra a) s fun t =>
    t.getVN a = s.getVN a ∧ (∀ j, bitAt (t.getV a) j = false) ∧ OnlyV a s t) ∧
  (∀ (a : XReg) (b : VReg) (s : State), s.Inv → s.cfg.Valid →
    EncodedAs 0x1A a b 0 0 (.bvLen a b) ∧ Completes (.bvLen a b) s fun t => (t.getX a).toNat = s.getVN b ∧ OnlyX a s t)

/-- Rule R122 (4): a shift by `k₁` and then by `k₂` gives the vector that a shift by `k₁ + k₂` gives. -/
def Obligations.ShiftsCompose : Prop :=
  ∀ (a : VReg) (k₁ k₂ : Nat) (s t₁ t₂ t : State),
    exec (.bvShli a k₁) s = .next t₁ → exec (.bvShli a k₂) t₁ = .next t₂ → exec (.bvShli a (k₁ + k₂)) s = .next t →
    t₂.getV a = t.getV a

/-- Rule R122 (6) and (7): no BV command but `BV.NEW` changes a capacity, and none touches a vector register other than
the one its Vd field names. -/
def Obligations.BvCommandsKeepCapacitiesAndOtherVectors : Prop :=
  ∀ (i : Instr) (s t : State), i.unit = 1 → exec i s = .next t →
    ((∀ a n, i ≠ .bvNew a n) → ∀ r, t.getVN r = s.getVN r) ∧
    (∀ r, i.vDest ≠ some r → t.getV r = s.getV r)

/-! ## spec/42_writer.md and spec/20_memory.md -/

/-- `WR.INIT` constructs an all-zero writer of the capacity in a register, or raises OperandError above `BUFMAX`
(rule R131). -/
def Obligations.WrInitConstructsTheWriter : Prop :=
  ∀ (a : XReg) (s : State),
    EncodedAs 0x20 a 0 0 0 (.wrInit a) ∧
    ((s.getX a).toNat ≤ s.cfg.bufmax → Completes (.wrInit a) s fun t =>
      t.wcap = (s.getX a).toNat ∧ t.wpos = 0 ∧ (∀ q, Memory.read t.wbuf q = 0) ∧ OnlyWriter s t) ∧
    (s.cfg.bufmax < (s.getX a).toNat → Raises (.wrInit a) s .operandError)

/-- The integer writes append the low 1, 8, 16, 32 or 64 bits of the register, least significant first, when the run
fits, and raise CapacityError otherwise (rules R130 and R132 to R136). -/
def Obligations.IntegerWritesAppendLowBits : Prop :=
  ∀ (a : XReg) (s : State),
    ∀ p ∈ [(1, 0x21, Instr.wrBit a), (8, 0x22, .wrU8 a), (16, 0x23, .wrU16 a), (32, 0x24, .wrU32 a),
        (64, 0x25, .wrU64 a)],
      EncodedAs p.2.1 a 0 0 0 p.2.2 ∧
      (s.wpos + p.1 ≤ 8 * s.wcap → Completes p.2.2 s (Appended p.1 (fun j => (s.getX a).getLsbD j) s)) ∧
      (8 * s.wcap < s.wpos + p.1 → Raises p.2.2 s .capacityError)

/-- `WR.V` appends all bits of a vector, index 0 first, when they fit, and raises CapacityError otherwise; an empty
vector always fits a writer whose position is in its buffer (rule R138). -/
def Obligations.VectorWriteAppendsAllBits : Prop :=
  ∀ (a : VReg) (s : State),
    EncodedAs 0x26 a 0 0 0 (.wrV a) ∧
    (s.wpos + s.getVN a ≤ 8 * s.wcap →
      Completes (.wrV a) s (Appended (s.getVN a) (fun j => bitAt (s.getV a) j) s)) ∧
    (8 * s.wcap < s.wpos + s.getVN a → Raises (.wrV a) s .capacityError)

/-- `WR.PAD` moves the position to the least multiple of 8 not below it, writing zeros (rule R137). -/
def Obligations.WrPadZeroFillsToTheBoundary : Prop :=
  EncodedAs 0x27 0 0 0 0 .wrPad ∧ ∀ s : State, s.wpos ≤ 8 * s.wcap → Completes .wrPad s fun t =>
    t.wpos % 8 = 0 ∧ s.wpos ≤ t.wpos ∧ t.wpos < s.wpos + 8 ∧ t.wcap = s.wcap ∧
    (∀ p, Memory.bit t.wbuf p = if s.wpos ≤ p ∧ p < t.wpos then false else Memory.bit s.wbuf p) ∧
    (∀ q, q ≠ s.wpos / 8 → Memory.read t.wbuf q = Memory.read s.wbuf q) ∧ OnlyWriter s t

/-- `WR.POS` gives the position in bits (rule R139) and `WR.LEN` the length of `GetBytes()` in bytes (rule R140), in the
states of rule R28. -/
def Obligations.WrPosAndLenReadThePosition : Prop :=
  ∀ (a : XReg) (s : State), s.Inv → s.cfg.Valid →
    EncodedAs 0x28 a 0 0 0 (.wrPos a) ∧ EncodedAs 0x29 a 0 0 0 (.wrLen a) ∧
    (Completes (.wrPos a) s fun t => (t.getX a).toNat = s.wpos ∧ OnlyX a s t) ∧
    (Completes (.wrLen a) s fun t =>
      (t.getX a).toNat = (s.wpos + 7) / 8 ∧ (t.getX a).toNat = s.getBytes.length ∧ OnlyX a s t)

/-- `WR.GETB` gives a byte of `GetBytes()`, or raises OperandError at or beyond its length (rules R141 and R142). -/
def Obligations.WrGetbReadsAByteOfGetBytes : Prop :=
  ∀ (a b : XReg) (s : State), s.wpos ≤ 8 * s.wcap →
    EncodedAs 0x2A a b 0 0 (.wrGetb a b) ∧
    ((s.getX b).toNat < (s.wpos + 7) / 8 → Completes (.wrGetb a b) s fun t =>
      (t.getX a).toNat = (Memory.read s.wbuf (s.getX b).toNat).toNat ∧
      s.getBytes[(s.getX b).toNat]? = some (Memory.read s.wbuf (s.getX b).toNat) ∧ OnlyX a s t) ∧
    ((s.wpos + 7) / 8 ≤ (s.getX b).toNat → Raises (.wrGetb a b) s .operandError)

/-- Rule R53: an integer written at a position that is a multiple of 8 is stored in little-endian byte order. -/
def Obligations.AlignedWritesAreLittleEndian : Prop :=
  ∀ (a : XReg) (s : State), s.wpos % 8 = 0 →
    ∀ p ∈ [(1, Instr.wrU8 a), (2, .wrU16 a), (4, .wrU32 a), (8, .wrU64 a)], s.wpos + 8 * p.1 ≤ 8 * s.wcap →
      Completes p.2 s fun t =>
        (∀ k, k < p.1 → Memory.read t.wbuf (s.wpos / 8 + k) = (s.getX a).extractLsb' (8 * k) 8) ∧
        (∀ q, q < s.wpos / 8 ∨ s.wpos / 8 + p.1 ≤ q → Memory.read t.wbuf q = Memory.read s.wbuf q)

/-- Rule R144 (3): writing a 16-, 32- or 64-bit value leaves the same buffer and position as writing its low half and
then its high half, when the whole run fits. -/
def Obligations.IntegerWritesSplitIntoHalves : Prop :=
  ∀ (a lo hi : XReg) (s t t₁ t₂ : State),
    ∀ p ∈ [(8, Instr.wrU16 a, Instr.wrU8 lo, Instr.wrU8 hi), (16, .wrU32 a, .wrU16 lo, .wrU16 hi),
        (32, .wrU64 a, .wrU32 lo, .wrU32 hi)],
      (∀ j, j < p.1 → (s.getX lo).getLsbD j = (s.getX a).getLsbD j) →
      (∀ j, j < p.1 → (s.getX hi).getLsbD j = (s.getX a).getLsbD (p.1 + j)) →
      s.wpos + 2 * p.1 ≤ 8 * s.wcap →
      exec p.2.1 s = .next t → exec p.2.2.1 s = .next t₁ → exec p.2.2.2 t₁ = .next t₂ →
      t₂.wpos = t.wpos ∧ ∀ q, Memory.read t₂.wbuf q = Memory.read t.wbuf q

/-- Rule R144 (1) and (2): no WR command but `WR.INIT` moves the position back or changes a bit below it. -/
def Obligations.WriterOnlyAppends : Prop :=
  ∀ (i : Instr) (s t : State), i.unit = 2 → (∀ a, i ≠ .wrInit a) → exec i s = .next t →
    t.wcap = s.wcap ∧ s.wpos ≤ t.wpos ∧ ∀ p, p < s.wpos → Memory.bit t.wbuf p = Memory.bit s.wbuf p

/-! ## spec/43_reader.md -/

/-- `RD.INIT` empties the input (rule R151); `RD.PUTB` appends a byte at the end and leaves the position, or raises
OperandError when the input is full (rule R152). -/
def Obligations.RdInitAndPutbBuildTheInput : Prop :=
  EncodedAs 0x30 0 0 0 0 .rdInit ∧
  (∀ s : State, Completes .rdInit s fun t => t.rlen = 0 ∧ t.rpos = 0 ∧ t.rbuf = [] ∧ OnlyReader s t) ∧
  (∀ (a : XReg) (s : State),
    EncodedAs 0x31 a 0 0 0 (.rdPutb a) ∧
    (s.rlen < s.cfg.bufmax → Completes (.rdPutb a) s fun t =>
      t.rlen = s.rlen + 1 ∧ t.rpos = s.rpos ∧
      Memory.read t.rbuf s.rlen = (s.getX a).extractLsb' 0 8 ∧
      (∀ q, q ≠ s.rlen → Memory.read t.rbuf q = Memory.read s.rbuf q) ∧ OnlyReader s t) ∧
    (s.cfg.bufmax ≤ s.rlen → Raises (.rdPutb a) s .operandError))

/-- `RD.LDW` makes the input a copy of `GetBytes()` and rewinds (rule R153). -/
def Obligations.RdLdwCopiesGetBytes : Prop :=
  EncodedAs 0x32 0 0 0 0 .rdLdw ∧ ∀ s : State, s.wpos ≤ 8 * s.wcap → Completes .rdLdw s fun t =>
    t.rlen = (s.wpos + 7) / 8 ∧ t.rpos = 0 ∧
    (∀ q, q < t.rlen → s.getBytes[q]? = some (Memory.read t.rbuf q)) ∧
    (∀ c ∈ t.rbuf, c.1 < t.rlen) ∧ OnlyReader s t

/-- The zero-extending reads: bit j of the destination is the bit at position `RPOS + j` below the width and 0 above;
FormatError when the run is not there (rules R150, R154 to R156, R158 and R160). -/
def Obligations.UnsignedReadsZeroExtend : Prop :=
  ∀ (d : XReg) (s : State),
    ∀ p ∈ [(1, 0x33, Instr.rdBit d), (8, 0x34, .rdU8 d), (16, 0x35, .rdU16 d), (32, 0x37, .rdU32 d),
        (64, 0x39, .rdU64 d)],
      EncodedAs p.2.1 d 0 0 0 p.2.2 ∧
      (s.rpos + p.1 ≤ 8 * s.rlen → Completes p.2.2 s fun t =>
        (∀ j, (t.getX d).getLsbD j = if j < p.1 then Memory.bit s.rbuf (s.rpos + j) else false) ∧
        Consumed p.1 s t ∧ OnlyReaderAndX d s t) ∧
      (8 * s.rlen < s.rpos + p.1 → Raises p.2.2 s .formatError)

/-- The sign-extending reads: the bits above the width are copies of its top bit; FormatError when the run is not there
(rules R157 and R159). -/
def Obligations.SignedReadsSignExtend : Prop :=
  ∀ (d : XReg) (s : State), ∀ p ∈ [(16, 0x36, Instr.rdI16 d), (32, 0x38, .rdI32 d)],
    EncodedAs p.2.1 d 0 0 0 p.2.2 ∧
    (s.rpos + p.1 ≤ 8 * s.rlen → Completes p.2.2 s fun t =>
      (∀ j, j < 64 → (t.getX d).getLsbD j =
        if j < p.1 then Memory.bit s.rbuf (s.rpos + j) else Memory.bit s.rbuf (s.rpos + p.1 - 1)) ∧
      Consumed p.1 s t ∧ OnlyReaderAndX d s t) ∧
    (8 * s.rlen < s.rpos + p.1 → Raises p.2.2 s .formatError)

/-- `RD.V` makes a vector of the next n bits, lowest position at index 0; OperandError above `VMAX` is tested before
FormatError (rules R161 and R202). -/
def Obligations.VectorReadTakesTheNextBits : Prop :=
  ∀ (d : VReg) (n : Nat) (s : State),
    (n < 4096 → EncodedAs 0x3A d 0 0 n (.rdV d n)) ∧
    (n ≤ s.cfg.vmax → s.rpos + n ≤ 8 * s.rlen → Completes (.rdV d n) s fun t =>
      t.getVN d = n ∧ (∀ j, j < n → bitAt (t.getV d) j = Memory.bit s.rbuf (s.rpos + j)) ∧
      Consumed n s t ∧ OnlyReaderAndV d s t) ∧
    (s.cfg.vmax < n → Raises (.rdV d n) s .operandError) ∧
    (n ≤ s.cfg.vmax → 8 * s.rlen < s.rpos + n → Raises (.rdV d n) s .formatError)

/-- `RD.PAD` moves the position to the least multiple of 8 not below it and looks at no bit (rule R162); in the states of
rule R28 `RD.POS` gives the position in bits (rule R163) and `RD.LEN` the length in bytes (rule R164). -/
def Obligations.RdPadMovesAndPosLenReadThePosition : Prop :=
  EncodedAs 0x3B 0 0 0 0 .rdPad ∧ (∀ s : State, Completes .rdPad s fun t =>
    t.rpos % 8 = 0 ∧ s.rpos ≤ t.rpos ∧ t.rpos < s.rpos + 8 ∧ SameInput s t ∧ OnlyReader s t) ∧
  (∀ (a : XReg) (s : State), s.Inv → s.cfg.Valid →
    EncodedAs 0x3C a 0 0 0 (.rdPos a) ∧ EncodedAs 0x3D a 0 0 0 (.rdLen a) ∧
    (Completes (.rdPos a) s fun t => (t.getX a).toNat = s.rpos ∧ OnlyX a s t) ∧
    (Completes (.rdLen a) s fun t => (t.getX a).toNat = s.rlen ∧ OnlyX a s t))

/-- Rule R166 (1) to (5) and (7): an integer written at any position and read back, after any further writes, `RD.LDW`
and any reads that bring the reader to that position, comes back as the rule says, and the reader then stands where the
writer stood after the write. -/
def Obligations.IntegersRoundTrip : Prop :=
  ∀ (a d : XReg) (s t u v r : State) (writes reads : List Instr),
    ∀ p ∈ [(1, Instr.wrBit a, Instr.rdBit d, fun x : Word => (x.setWidth 1).setWidth 64),
        (8, .wrU8 a, .rdU8 d, fun x => (x.setWidth 8).setWidth 64),
        (16, .wrU16 a, .rdU16 d, fun x => (x.setWidth 16).setWidth 64),
        (16, .wrU16 a, .rdI16 d, fun x => (x.setWidth 16).signExtend 64),
        (32, .wrU32 a, .rdU32 d, fun x => (x.setWidth 32).setWidth 64),
        (32, .wrU32 a, .rdI32 d, fun x => (x.setWidth 32).signExtend 64),
        (64, .wrU64 a, .rdU64 d, fun x => x)],
      s.wpos + p.1 ≤ 8 * s.wcap → exec p.2.1 s = .next t →
      (∀ i ∈ writes, i.appends = true) → Performs writes t u → exec .rdLdw u = .next v →
      (∀ i ∈ reads, i.consumes = true) → Performs reads v r → r.rpos = s.wpos →
      Completes p.2.2.1 r fun z => z.getX d = p.2.2.2 (s.getX a) ∧ z.rpos = t.wpos

/-- Rule R166 (6) and (7): a vector of any capacity up to `VMAX` written and read back, in the same way, is equal in
capacity and in every bit. -/
def Obligations.VectorsRoundTrip : Prop :=
  ∀ (a d : VReg) (s t u v r : State) (writes reads : List Instr),
    s.getVN a ≤ s.cfg.vmax → s.wpos + s.getVN a ≤ 8 * s.wcap → exec (.wrV a) s = .next t →
    (∀ i ∈ writes, i.appends = true) → Performs writes t u → exec .rdLdw u = .next v →
    (∀ i ∈ reads, i.consumes = true) → Performs reads v r → r.rpos = s.wpos →
    Completes (.rdV d (s.getVN a)) r fun z => z.getV d = s.getV a ∧ z.rpos = t.wpos

/-! ## spec/44_seqno.md -/

/-- `SEQ.CMP` gives 0, 1 or -1 by the circular distance, which is -1 at the antipode (rule R171). -/
def Obligations.SeqCmpGivesTheVerdict : Prop :=
  ∀ (a b c : XReg) (s : State), EncodedAs 0x40 a b c 0 (.seqCmp a b c) ∧ Completes (.seqCmp a b c) s fun t =>
    t.getX a = (if distance (s.getX b) (s.getX c) = 0 then 0#64
      else if distance (s.getX b) (s.getX c) < 32768 then 1#64 else 0xFFFFFFFFFFFFFFFF#64) ∧ OnlyX a s t

/-- `SEQ.DIF` gives the circular difference as a 16-bit signed quantity, sign-extended (rule R172). -/
def Obligations.SeqDifGivesTheSignedDifference : Prop :=
  ∀ (a b c : XReg) (s : State), EncodedAs 0x41 a b c 0 (.seqDif a b c) ∧ Completes (.seqDif a b c) s fun t =>
    (t.getX a).toInt = (if distance (s.getX b) (s.getX c) < 32768 then (distance (s.getX b) (s.getX c) : Int)
      else (distance (s.getX b) (s.getX c) : Int) - 65536) ∧ OnlyX a s t

/-- `SEQ.ADD` and `SEQ.SUB` are addition and subtraction modulo 65536 of bits 15:0, zero-extended
(rules R173 and R174). -/
def Obligations.SeqAddSubAreModulo65536 : Prop :=
  ∀ (a b c : XReg) (s : State),
    EncodedAs 0x42 a b c 0 (.seqAdd a b c) ∧ EncodedAs 0x43 a b c 0 (.seqSub a b c) ∧
    (Completes (.seqAdd a b c) s fun t =>
      (t.getX a).toNat = ((s.getX b).toNat % 65536 + (s.getX c).toNat % 65536) % 65536 ∧ OnlyX a s t) ∧
    (Completes (.seqSub a b c) s fun t =>
      (((t.getX a).toNat : Int) = (((s.getX b).toNat % 65536 : Int) - ((s.getX c).toNat % 65536 : Int)) % 65536) ∧
      OnlyX a s t)

/-- The source's testable properties, rule R176 (1) to (7), of `SEQ.ADD`, `SEQ.SUB`, `SEQ.CMP` and `SEQ.DIF` run one
after the other: `X3 = a + d` (or `a - d`), then the comparison and the difference with `a`. -/
def Obligations.SeqTestableProperties : Prop :=
  ∀ (s : State) (xa xd x y z : XReg) (d : Nat), xa ≠ x → xa ≠ y → x ≠ y →
    (s.getX xd).toNat % 65536 = d →
    (Completes (.seqCmp z xa xa) s fun t => t.getX z = 0) ∧
    (1 ≤ d → d ≤ 32767 →
      (∃ t₁ t₂, exec (.seqAdd x xa xd) s = .next t₁ ∧ exec (.seqCmp y x xa) t₁ = .next t₂ ∧ t₂.getX y = 1 ∧
        Completes (.seqDif z x xa) t₂ fun t => (t.getX z).toInt = d) ∧
      (∃ t₁ t₂, exec (.seqSub x xa xd) s = .next t₁ ∧ exec (.seqCmp y x xa) t₁ = .next t₂ ∧
        t₂.getX y = 0xFFFFFFFFFFFFFFFF#64 ∧
        Completes (.seqDif z x xa) t₂ fun t => (t.getX z).toInt = -(d : Int))) ∧
    ((s.getX xa).toNat % 65536 = 0 → d = 65535 → Completes (.seqCmp z xa xd) s fun t => t.getX z = 1) ∧
    (∃ t, exec (.seqCmp z xa xd) s = .next t ∧ (t.getX z = 0 ↔ (s.getX xa).toNat % 65536 = d)) ∧
    (d = 32768 → ∃ t₁ t₂, exec (.seqAdd x xa xd) s = .next t₁ ∧ exec (.seqCmp y x xa) t₁ = .next t₂ ∧
      t₂.getX y = 0xFFFFFFFFFFFFFFFF#64 ∧
      Completes (.seqCmp z xa x) t₂ fun t => t.getX z = 0xFFFFFFFFFFFFFFFF#64)

/-- Rule R175: at the antipode both orders give -1 and -32768; the relation "`SEQ.CMP` gives +1" is irreflexive, is
antisymmetric and decides every pair but the antipodes, is not transitive (0, 20000, 40000), and orders any window of
fewer than 32768 consecutive numbers. -/
def Obligations.CircularOrderAndItsAntipode : Prop :=
  (∀ (a b c : XReg) (s : State), distance (s.getX b) (s.getX c) = 32768 →
    (Completes (.seqCmp a b c) s fun t => t.getX a = 0xFFFFFFFFFFFFFFFF#64) ∧
    (Completes (.seqCmp a c b) s fun t => t.getX a = 0xFFFFFFFFFFFFFFFF#64) ∧
    (Completes (.seqDif a b c) s fun t => (t.getX a).toInt = -32768) ∧
    (Completes (.seqDif a c b) s fun t => (t.getX a).toInt = -32768)) ∧
  (∀ p : SeqNo, ¬ Newer p p) ∧
  (∀ p q : SeqNo, Newer p q → ¬ Newer q p) ∧
  (∀ p q : SeqNo, p ≠ q → p ≠ q + 32768 → Newer p q ∨ Newer q p) ∧
  (∀ p : SeqNo, ¬ Newer (p + 32768) p ∧ ¬ Newer p (p + 32768)) ∧
  (Newer 20000 0 ∧ Newer 40000 20000 ∧ ¬ Newer 40000 0 ∧ Newer 0 40000) ∧
  (∀ (base : SeqNo) (m n : Nat), m < n → n < 32768 → Newer (base + BitVec.ofNat 16 n) (base + BitVec.ofNat 16 m))

/-! ## spec/45_ackwindow.md -/

/-- `ACK.INIT` gives a clear window of width W and the mark from bits 15:0 of the register, or raises OperandError above
`VMAX` (rule R180). -/
def Obligations.AckInitConstructsTheTracker : Prop :=
  ∀ (a : XReg) (imm : Nat) (s : State),
    (imm < 4096 → EncodedAs 0x50 a 0 0 imm (.ackInit a imm)) ∧
    (imm ≤ s.cfg.vmax → Completes (.ackInit a imm) s fun t =>
      t.aw = imm ∧ (∀ j, bitAt t.awin j = false) ∧ t.ahwm.toNat = (s.getX a).toNat % 65536 ∧ OnlyTracker s t) ∧
    (s.cfg.vmax < imm → Raises (.ackInit a imm) s .operandError)

/-- `ACK.RX` in its five cases, `u` being the distance from the mark up to the number (rule R181). -/
def Obligations.AckRxMovesTheWindow : Prop :=
  ∀ (a : XReg) (s : State), EncodedAs 0x51 a 0 0 0 (.ackRx a) ∧ Completes (.ackRx a) s fun t =>
    let u := ((s.getX a).toNat % 65536 + 65536 - s.ahwm.toNat) % 65536
    t.aw = s.aw ∧ OnlyTracker s t ∧
    (u = 0 → NoChange s t) ∧
    (1 ≤ u → u ≤ 32767 → t.ahwm.toNat = (s.getX a).toNat % 65536 ∧
      (s.aw < u → ∀ j, bitAt t.awin j = false) ∧
      (u ≤ s.aw → ∀ j, j < s.aw →
        bitAt t.awin j = if j = u - 1 then true else if u ≤ j then bitAt s.awin (j - u) else false)) ∧
    (32768 ≤ u → t.ahwm = s.ahwm ∧
      (65536 - u ≤ s.aw → ∀ j, j < s.aw →
        bitAt t.awin j = if j = 65536 - u - 1 then true else bitAt s.awin j) ∧
      (s.aw < 65536 - u → NoChange s t))

/-- `ACK.HWM` reads the mark (rule R182) and `ACK.WIN` copies the window into a vector register (rule R183). -/
def Obligations.AckHwmAndWinReadThePair : Prop :=
  (∀ (a : XReg) (s : State), EncodedAs 0x52 a 0 0 0 (.ackHwm a) ∧
    Completes (.ackHwm a) s fun t => (t.getX a).toNat = s.ahwm.toNat ∧ OnlyX a s t) ∧
  (∀ (a : VReg) (s : State), EncodedAs 0x53 a 0 0 0 (.ackWin a) ∧ Completes (.ackWin a) s fun t =>
    t.getVN a = s.aw ∧ t.getV a = s.awin ∧ OnlyV a s t)

/-- `ACK.ISRX`: the mark is known, a newer number is not, an older one by its bit if it is at most `AW` below the mark;
`u` is the distance from the number up to the mark (rule R184). -/
def Obligations.AckIsrxAnswersKnownReceived : Prop :=
  ∀ (a b : XReg) (s : State), EncodedAs 0x54 a b 0 0 (.ackIsrx a b) ∧ Completes (.ackIsrx a b) s fun t =>
    let u := (s.ahwm.toNat + 65536 - (s.getX b).toNat % 65536) % 65536
    t.getX a = (if u = 0 then 1#64
      else if u ≤ 32768 ∧ u ≤ s.aw ∧ bitAt s.awin (u - 1) then 1#64 else 0#64) ∧ OnlyX a s t

/-- Rule R185: after `ACK.RX` of a number, the tracker knows exactly the numbers that it knew or that was fed, as far as
they are at most `AW` below the (new) mark. The mark is the number fed when it is newer, else the old one. -/
def Obligations.AckRxTracksTheReceivedSet : Prop :=
  ∀ (a : XReg) (s t : State) (q : SeqNo), s.aw ≤ 4095 → exec (.ackRx a) s = .next t →
    t.ahwm = (if (seqOf (s.getX a) - s.ahwm).toNat < 32768 then seqOf (s.getX a) else s.ahwm) ∧
    (t.knows q = true ↔ (t.ahwm - q).toNat ≤ s.aw ∧ (q = seqOf (s.getX a) ∨ s.knows q = true))

/-! ## spec/60_exceptions.md -/

/-- Rules R203 and R204: the state after a faulting command, or after a word that spells none, is the state before it but
for the one `FSR` bit; the response carries the fault and `DOUT = 0`. -/
def Obligations.FaultsArePrecise : Prop :=
  (∀ (i : Instr) (s t : State) (k : FaultKind) (dout : Word), exec i s = .next t →
    t.responses = s.responses ++ [⟨.fault k, dout⟩] → FaultEntered k s t) ∧
  (∀ (s s' : State) (tr : Transaction) (later : List Transaction) (k : FaultKind) (dout : Word),
    s.pending = tr :: later → step s = .next s' → s'.responses = s.responses ++ [⟨.fault k, dout⟩] →
    FaultEntered k { s with din := tr.din, pending := later } s')

/-- Rules R201 and R202: in the states of rule R28 each command answers with the status of the table, and a word that
spells no command with IllegalCommand. -/
def Obligations.FaultTable : Prop :=
  (∀ (i : Instr) (s : State), s.Inv →
    ∃ t dout, exec i s = .next t ∧ t.responses = s.responses ++ [⟨statusOf (faultOf i s), dout⟩]) ∧
  (∀ (s : State) (t : Transaction) (later : List Transaction), s.pending = t :: later →
    (∀ row ∈ opcodeTable, t.cw &&& row.mask ≠ row.pattern) →
    ∃ s' dout, step s = .next s' ∧ s'.responses = s.responses ++ [⟨.fault .illegalCommand, dout⟩])

/-- Rule R23: an `FSR` bit stays set until `CLRF`, `SRST` or reset clears all four. -/
def Obligations.FsrBitsAreSticky : Prop :=
  ∀ (i : Instr) (s t : State) (k : FaultKind), exec i s = .next t → s.flag k = true →
    (i ≠ .clrf ∧ i ≠ .srst → t.flag k = true) ∧ (i = .clrf ∨ i = .srst → t.fsr = 0)
end

