-- ==== Sys2Proof/Laws/Bits.lean ====
section
/-! SUPPORT. Bit runs, BitVectors and sequence numbers: what each helper gives, bit by bit or as a number. -/

namespace Sys2Proof.Machine

open Sys2Proof

/-! ## Bit runs and registers -/

@[simp] theorem length_lowBits (n : Nat) (w : Word) : (lowBits n w).length = n := by simp [lowBits]

@[simp] theorem getD_lowBits (n : Nat) (w : Word) (j : Nat) :
    (lowBits n w).getD j false = if j < n then w.getLsbD j else false := by
  by_cases h : j < n <;> simp [lowBits, List.getD_eq_getElem?_getD, h]

/-- `t[j]` has weight `2^j` (rule R155). -/
@[simp] theorem testBit_ofBits (t : Bits) (j : Nat) : (ofBits t).testBit j = t.getD j false := by
  induction t generalizing j with
  | nil => simp [ofBits]
  | cons b t ih =>
    cases j with
    | zero =>
      cases b <;> simp [ofBits, Nat.testBit_zero, Nat.add_mod]
    | succ j =>
      have : (b.toNat + 2 * ofBits t) / 2 = ofBits t := by cases b <;> simp only [Bool.toNat_true, Bool.toNat_false] <;> omega
      simp only [ofBits, Nat.testBit_succ, this, ih, List.getD_cons_succ]

@[simp] theorem getLsbD_zext (n j : Nat) : (zext n).getLsbD j = (decide (j < 64) && n.testBit j) := by
  simp [zext, BitVec.getLsbD_ofNat]

theorem getD_of_length_le (t : Bits) (j : Nat) (h : t.length ≤ j) : t.getD j false = false := by
  simp [List.getD_eq_getElem?_getD, h]

/-- A run read zero-extended: its own bits, then zeros. -/
theorem getLsbD_zext_ofBits (t : Bits) (j : Nat) (ht : t.length ≤ 64) :
    (zext (ofBits t)).getLsbD j = t.getD j false := by
  rw [getLsbD_zext, testBit_ofBits]
  by_cases h : j < 64
  · rw [decide_eq_true h, Bool.true_and]
  · rw [getD_of_length_le t j (by omega), Bool.and_false]

/-- A run read sign-extended: its own bits, then copies of the top one. -/
theorem getLsbD_sext_ofBits (t : Bits) (n j : Nat) (hn : 0 < n) (hj : j < 64) :
    (sext n (ofBits t)).getLsbD j = if j < n then t.getD j false else t.getD (n - 1) false := by
  unfold sext
  rw [BitVec.getLsbD_signExtend, BitVec.msb_eq_getLsbD_last]
  have h : n - 1 < n := by omega
  simp only [BitVec.getLsbD_ofNat, testBit_ofBits]
  by_cases hjn : j < n
  · simp only [hj, hjn, decide_true, Bool.true_and, if_true]
  · simp only [hj, hjn, h, decide_true, Bool.true_and, if_false]

theorem toNat_zext (n : Nat) (h : n < 2 ^ 64) : (zext n).toNat = n := by
  rw [zext, BitVec.toNat_ofNat, Nat.mod_eq_of_lt h]

theorem zextBit_eq (b : Bool) : zextBit b = if b then 1 else 0 := by cases b <;> rfl

/-! ## BitVectors -/

@[simp] theorem length_zeros (n : Nat) : (zeros n).length = n := by simp [zeros]

@[simp] theorem bitAt_nil (j : Nat) : bitAt [] j = false := rfl

@[simp] theorem bitAt_zeros (n j : Nat) : bitAt (zeros n) j = false := by
  by_cases h : j < n <;> simp [bitAt, zeros, List.getD_eq_getElem?_getD, h]

@[simp] theorem getD_zeros (n j : Nat) : (zeros n).getD j false = false := bitAt_zeros n j

/-- There is no bit at an index at or beyond the capacity (rule R21): `bitAt` is false there. -/
theorem bitAt_of_length_le (t : Bits) (j : Nat) (h : t.length ≤ j) : bitAt t j = false := getD_of_length_le t j h

@[simp] theorem length_setBitAt (t : Bits) (i : Nat) (b : Bool) : (setBitAt t i b).length = t.length := by
  simp [setBitAt]

theorem bitAt_setBitAt (t : Bits) (i j : Nat) (b : Bool) (h : i < t.length) :
    bitAt (setBitAt t i b) j = if j = i then b else bitAt t j := by
  unfold bitAt setBitAt
  by_cases hj : j = i
  · subst hj; simp [List.getD_eq_getElem?_getD, h]
  · have : i ≠ j := fun e => hj e.symm
    simp [List.getD_eq_getElem?_getD, hj, this]

@[simp] theorem length_shl (t : Bits) (k : Nat) : (shl t k).length = t.length := by simp [shl]

/-- Rule R10: the bit at index j moves to index `j + k`, bits that would land beyond the capacity are discarded. -/
theorem bitAt_shl (t : Bits) (k j : Nat) :
    bitAt (shl t k) j = if j < t.length ∧ k ≤ j then bitAt t (j - k) else false := by
  by_cases hj : j < t.length
  · by_cases hk : k ≤ j <;> simp [bitAt, shl, List.getD_eq_getElem?_getD, hj, hk]
  · rw [bitAt_of_length_le _ _ (by simp; omega)]; simp [hj]

/-- Two vectors of one capacity with the same bits are equal. -/
theorem bits_ext {t u : Bits} (hl : t.length = u.length) (h : ∀ j, j < t.length → bitAt t j = bitAt u j) : t = u := by
  apply List.ext_getElem hl
  intro j h1 h2
  have := h j h1
  simpa [bitAt, List.getD_eq_getElem?_getD, h1, h2] using this

@[simp] theorem length_advanceWindow (t : Bits) (n : Nat) : (advanceWindow t n).length = t.length := by
  unfold advanceWindow; split <;> simp

@[simp] theorem length_markOlder (t : Bits) (n : Nat) : (markOlder t n).length = t.length := by
  unfold markOlder; split <;> simp

/-! ## Sequence numbers -/

theorem toNat_seqOf (w : Word) : (seqOf w).toNat = w.toNat % 65536 := by simp [seqOf]

theorem toNat_seq_sub (p q : SeqNo) : (p - q).toNat = (p.toNat + 65536 - q.toNat) % 65536 := by
  rw [BitVec.toNat_sub]
  have := q.isLt
  congr 1; omega

theorem sdiff16_def (p q : SeqNo) :
    sdiff16 p q = if (p - q).toNat < 32768 then ((p - q).toNat : Int) else ((p - q).toNat : Int) - 65536 := rfl

/-- The range of `sdiff16` (rule R10). -/
theorem sdiff16_range (p q : SeqNo) : -32768 ≤ sdiff16 p q ∧ sdiff16 p q ≤ 32767 := by
  rw [sdiff16_def]
  have := (p - q).isLt
  split <;> constructor <;> omega

theorem sdiff16_eq_zero (p q : SeqNo) : sdiff16 p q = 0 ↔ p = q := by
  rw [sdiff16_def]
  have := (p - q).isLt
  constructor
  · intro h
    have h0 : (p - q).toNat = 0 := by
      split at h <;> omega
    have h1 := toNat_seq_sub p q
    have := p.isLt; have := q.isLt
    apply BitVec.eq_of_toNat_eq
    omega
  · rintro rfl
    simp

theorem sdiff16_pos (p q : SeqNo) : 0 < sdiff16 p q ↔ 1 ≤ (p - q).toNat ∧ (p - q).toNat < 32768 := by
  rw [sdiff16_def]
  have := (p - q).isLt
  split <;> constructor <;> intro h <;> omega

end Sys2Proof.Machine
end

