-- ==== Sys2Proof/Laws/Decode.lean ====
section
/-! SUPPORT. The fields of an assembled word, and what a word that obeys its format looks like. -/

namespace Sys2Proof

theorem toNat_wordOf {op a b c imm : Nat} (ho : op < 256) (ha : a < 8) (hb : b < 8) (hc : c < 8) (hi : imm < 4096) :
    (wordOf op a b c imm).toNat = op * 2 ^ 24 + a * 2 ^ 20 + b * 2 ^ 16 + c * 2 ^ 12 + imm := by
  rw [wordOf, BitVec.toNat_ofNat, Nat.mod_eq_of_lt]
  omega

section Fields

variable {op a b c imm : Nat} (ho : op < 256) (ha : a < 8) (hb : b < 8) (hc : c < 8) (hi : imm < 4096)
include ho ha hb hc hi

theorem opOf_wordOf : opOf (wordOf op a b c imm) = op := by
  rw [opOf, field, toNat_wordOf ho ha hb hc hi]; omega

theorem fieldA_wordOf : field (wordOf op a b c imm) 20 3 = a := by
  rw [field, toNat_wordOf ho ha hb hc hi]; omega

theorem fieldB_wordOf : field (wordOf op a b c imm) 16 3 = b := by
  rw [field, toNat_wordOf ho ha hb hc hi]; omega

theorem fieldC_wordOf : field (wordOf op a b c imm) 12 3 = c := by
  rw [field, toNat_wordOf ho ha hb hc hi]; omega

theorem fieldImm_wordOf : field (wordOf op a b c imm) 0 12 = imm := by
  rw [field, toNat_wordOf ho ha hb hc hi]; omega

/-- The reserved bits of an assembled word are zero (rule R71). -/
theorem reservedSet_wordOf : reservedSet (wordOf op a b c imm) = false := by
  have h23 : field (wordOf op a b c imm) 23 1 = 0 := by rw [field, toNat_wordOf ho ha hb hc hi]; omega
  have h19 : field (wordOf op a b c imm) 19 1 = 0 := by rw [field, toNat_wordOf ho ha hb hc hi]; omega
  have h15 : field (wordOf op a b c imm) 15 1 = 0 := by rw [field, toNat_wordOf ho ha hb hc hi]; omega
  simp [reservedSet, h23, h19, h15]

end Fields

/-- Bit 2 of a register field, and its low two bits, from the whole field. -/
theorem field_bit2 (w : CmdWord) (lo : Nat) : field w (lo + 2) 1 = field w lo 3 / 4 := by
  unfold field
  rw [Nat.pow_add, ← Nat.div_div_eq_div_mul]; omega

theorem field_low2 (w : CmdWord) (lo : Nat) : field w lo 2 = field w lo 3 % 4 := by
  unfold field; omega

/-- A word is its opcode, its three reserved bits, its three register fields and its immediate (rule R71). -/
theorem toNat_of_fields (w : CmdWord) :
    w.toNat = opOf w * 2 ^ 24 + field w 23 1 * 2 ^ 23 + field w 20 3 * 2 ^ 20 + field w 19 1 * 2 ^ 19 +
      field w 16 3 * 2 ^ 16 + field w 15 1 * 2 ^ 15 + field w 12 3 * 2 ^ 12 + field w 0 12 := by
  have := w.isLt
  unfold opOf field; omega

/-- A register field read as a register. -/
theorem xField_eq {w : CmdWord} {lo : Nat} {a : XReg} (h : field w lo 3 = a.val) : xField w lo = a := Fin.ext h

theorem vField_eq {w : CmdWord} {lo : Nat} {a : VReg} (h : field w lo 3 = a.val) : vField w lo = a :=
  Fin.ext (by show field w lo 2 = a.val; rw [field_low2, h]; omega)

/-- A kind-`V` field that holds a vector register's number passes the test of rule R73. -/
theorem vectorSet_of_vreg {w : CmdWord} {lo : Nat} {a : VReg} (h : field w lo 3 = a.val) : vectorSet w lo .v = false := by
  unfold vectorSet
  rw [field_bit2, h, Nat.div_eq_of_lt a.isLt]
  rfl

theorem field_lt (w : CmdWord) (lo len : Nat) : field w lo len < 2 ^ len := Nat.mod_lt _ (Nat.two_pow_pos _)

/-- A word without reserved bits is assembled from its fields. -/
theorem eq_wordOf_fields {w : CmdWord} (h : reservedSet w = false) :
    w = wordOf (opOf w) (field w 20 3) (field w 16 3) (field w 12 3) (field w 0 12) := by
  simp only [reservedSet, Bool.or_eq_false_iff, bne_eq_false_iff_eq] at h
  obtain ⟨⟨h1, h2⟩, h3⟩ := h
  have hw := toNat_of_fields w
  have ho : opOf w < 2 ^ 8 := field_lt w 24 8
  have hA := field_lt w 20 3
  have hB := field_lt w 16 3
  have hC := field_lt w 12 3
  have hI := field_lt w 0 12
  rw [h1, h2, h3] at hw
  generalize opOf w = op at *
  generalize field w 20 3 = a at *
  generalize field w 16 3 = b at *
  generalize field w 12 3 = c at *
  generalize field w 0 12 = imm at *
  apply BitVec.eq_of_toNat_eq
  rw [hw, toNat_wordOf (by omega) (by omega) (by omega) (by omega) (by omega)]
  omega

/-- A word passes the check of its format exactly when its reserved bits, the fields its format does not use and
bit 2 of its kind-`V` fields are zero, and then it decodes to the given command. -/
theorem checkWord_ok_iff (w : CmdWord) (a b c : Use) (imm : Bool) (i j : Instr) :
    checkWord w a b c imm i = .ok j ↔
      i = j ∧ reservedSet w = false ∧
      (unusedSet w 20 a = false ∧ unusedSet w 16 b = false ∧ unusedSet w 12 c = false ∧
        (imm = true ∨ field w 0 12 = 0)) ∧
      (vectorSet w 20 a = false ∧ vectorSet w 16 b = false ∧ vectorSet w 12 c = false) := by
  unfold checkWord
  by_cases h1 : reservedSet w = true
  · simp [h1]
  · rw [if_neg h1]
    split
    · rename_i h2
      constructor
      · intro h; cases h
      · rintro ⟨_, _, ⟨h3, h4, h5, h6⟩, _⟩
        simp only [h3, h4, h5, Bool.false_or, Bool.and_eq_true, Bool.not_eq_true', bne_iff_ne] at h2
        rcases h6 with h6 | h6
        · rw [h6] at h2; exact absurd h2.1 (by decide)
        · exact absurd h6 h2.2
    · rename_i h2
      split
      · rename_i h3
        constructor
        · intro h; cases h
        · rintro ⟨_, _, _, h4, h5, h6⟩
          simp [h4, h5, h6] at h3
      · rename_i h3
        simp only [Bool.not_eq_true] at h1 h2 h3
        simp only [Bool.or_eq_false_iff, Bool.and_eq_false_iff, Bool.not_eq_false', bne_eq_false_iff_eq] at h2 h3
        simp only [Except.ok.injEq]
        exact ⟨fun h => ⟨h, h1, ⟨h2.1.1.1, h2.1.1.2, h2.1.2, h2.2⟩, h3.1.1, h3.1.2, h3.2⟩, fun h => h.1⟩

end Sys2Proof
end

