-- ==== Sys2Proof/Laws/Memory.lean ====
section
/-! SUPPORT. The buffer spaces: what reading gives after each operation, and that every operation keeps the canonical
form (assumption log 5). -/

namespace Sys2Proof.Machine

open Sys2Proof

/-! ## Reading a byte -/

@[simp] theorem Memory.read_nil (a : Nat) : Memory.read [] a = 0 := rfl

@[simp] theorem Memory.read_cons (c : Host.Cell) (m : Memory) (a : Nat) :
    Memory.read (c :: m) a = if c.1 = a then c.2 else Memory.read m a := rfl

/-- A byte that is not listed reads 0. -/
theorem Memory.read_of_not_listed {m : Memory} {a : Nat} (h : ∀ c ∈ m, c.1 ≠ a) : Memory.read m a = 0 := by
  induction m with
  | nil => rfl
  | cons c m ih =>
    simp only [Memory.read_cons]
    rw [if_neg (h c (by simp)), ih fun d hd => h d (by simp [hd])]

/-- Keeping only the cells whose index satisfies `p`. -/
theorem Memory.read_filter (p : Nat → Bool) (m : Memory) (a : Nat) :
    Memory.read (m.filter fun c => p c.1) a = if p a then Memory.read m a else 0 := by
  induction m with
  | nil => simp
  | cons c m ih =>
    by_cases hc : c.1 = a
    · subst hc
      by_cases hp : p c.1 <;> simp [hp, ih]
    · by_cases hp : p c.1 <;> simp [hp, ih, hc]

theorem Memory.read_insert {m : Memory} {a : Nat} (h : ∀ c ∈ m, c.1 ≠ a) (b : Byte) (q : Nat) :
    Memory.read (Memory.insert a b m) q = if q = a then b else Memory.read m q := by
  induction m with
  | nil => simp [Memory.insert, eq_comm]
  | cons c m ih =>
    have hc : c.1 ≠ a := h c (by simp)
    simp only [Memory.insert]
    split
    · by_cases hq : q = a
      · simp [hq]
      · have hq' : a ≠ q := fun e => hq e.symm
        simp [hq, hq']
    · rw [Memory.read_cons, ih fun d hd => h d (by simp [hd])]
      by_cases hq : q = a
      · subst hq; simp [hc]
      · simp [hq]

/-- Read after write: the byte written at its index, every other byte as before. -/
@[simp] theorem Memory.read_write (m : Memory) (a : Nat) (b : Byte) (q : Nat) :
    Memory.read (Memory.write m a b) q = if q = a then b else Memory.read m q := by
  have hf := Memory.read_filter (fun k => k != a) m
  unfold Memory.write
  by_cases hb : b = 0
  · simp only [hb, if_true, hf]
    by_cases hq : q = a <;> simp [hq]
  · simp only [hb, if_false]
    rw [Memory.read_insert (by simp), hf]
    by_cases hq : q = a <;> simp [hq]

theorem Memory.read_write_self (m : Memory) (a : Nat) (b : Byte) : Memory.read (Memory.write m a b) a = b := by simp

theorem Memory.read_write_of_ne (m : Memory) {a q : Nat} (b : Byte) (h : q ≠ a) :
    Memory.read (Memory.write m a b) q = Memory.read m q := by simp [h]

@[simp] theorem Memory.read_take (m : Memory) (n q : Nat) :
    Memory.read (Memory.take m n) q = if q < n then Memory.read m q else 0 := by
  have := Memory.read_filter (fun k => decide (k < n)) m q
  simpa [Memory.take] using this

/-! ## Listed cells -/

theorem Memory.mem_insert {m : Memory} {a : Nat} {b : Byte} {c : Host.Cell} :
    c ∈ Memory.insert a b m ↔ c = (a, b) ∨ c ∈ m := by
  induction m with
  | nil => simp [Memory.insert]
  | cons d m ih =>
    simp only [Memory.insert]
    split
    · simp
    · simp [ih]; tauto

theorem Memory.mem_write {m : Memory} {a : Nat} {b : Byte} {c : Host.Cell} (h : c ∈ Memory.write m a b) :
    c.1 = a ∨ c ∈ m := by
  unfold Memory.write at h
  split at h
  · exact .inr (List.mem_of_mem_filter h)
  · rcases Memory.mem_insert.1 h with rfl | h
    · exact .inl rfl
    · exact .inr (List.mem_of_mem_filter h)

theorem Memory.mem_take {m : Memory} {n : Nat} {c : Host.Cell} (h : c ∈ Memory.take m n) : c ∈ m ∧ c.1 < n := by
  simpa [Memory.take] using h

/-! ## Bits of a byte -/

theorem getLsbD_one_shiftLeft (k j : Nat) (hj : j < 8) : (1#8 <<< k).getLsbD j = decide (j = k) := by
  rw [BitVec.getLsbD_shiftLeft, BitVec.getLsbD_one]
  by_cases h : j = k
  · subst h; simp [hj]
  · by_cases hlt : j < k
    · simp [h, hlt]
    · have : ¬ (j - k = 0) := by omega
      simp [h, this]

@[simp] theorem getLsbD_setByteBit (w : Byte) (k j : Nat) (b : Bool) (hk : k < 8) :
    (setByteBit w k b).getLsbD j = if j = k then b else w.getLsbD j := by
  unfold setByteBit
  by_cases hj : j < 8
  · have h1 := getLsbD_one_shiftLeft k j hj
    cases b
    · rw [if_neg (by simp), BitVec.getLsbD_and, BitVec.getLsbD_not, h1]
      by_cases h : j = k <;> simp [h, hj, hk]
    · rw [if_pos rfl, BitVec.getLsbD_or, h1]
      by_cases h : j = k <;> simp [h]
  · have h1 : j ≠ k := by omega
    rw [BitVec.getLsbD_of_ge _ _ (by omega), if_neg h1, BitVec.getLsbD_of_ge _ _ (by omega)]

/-- One bit replaced: position `p`, every other position as before (rule R51). -/
@[simp] theorem Memory.bit_setBit (m : Memory) (p q : Nat) (b : Bool) :
    Memory.bit (Memory.setBit m p b) q = if q = p then b else Memory.bit m q := by
  unfold Memory.bit Memory.setBit
  have h8 : p % 8 < 8 := Nat.mod_lt _ (by decide)
  rw [Memory.read_write]
  by_cases hd : q / 8 = p / 8
  · rw [if_pos hd, getLsbD_setByteBit _ _ _ _ h8]
    by_cases hq : q = p
    · simp [hq]
    · have : q % 8 ≠ p % 8 := by omega
      simp [hq, this, hd]
  · have : q ≠ p := fun e => hd (by rw [e])
    simp [hd, this]

/-- A run replaces exactly its positions (rule R130). -/
theorem Memory.bit_writeRun (t : Bits) (m : Memory) (p q : Nat) :
    Memory.bit (Memory.writeRun m p t) q =
      if p ≤ q ∧ q < p + t.length then t.getD (q - p) false else Memory.bit m q := by
  induction t generalizing m p with
  | nil => simp [Memory.writeRun]; omega
  | cons b t ih =>
    rw [Memory.writeRun, ih, Memory.bit_setBit]
    by_cases hq : q = p
    · subst hq; simp
    · by_cases h : p + 1 ≤ q ∧ q < p + 1 + t.length
      · have h' : p ≤ q ∧ q < p + (b :: t).length := by simp; omega
        rw [if_pos h, if_pos h']
        obtain ⟨k, rfl⟩ : ∃ k, q = p + 1 + k := ⟨q - (p + 1), by omega⟩
        rw [show p + 1 + k - p = k + 1 by omega, show p + 1 + k - (p + 1) = k by omega]
        rfl
      · have h' : ¬ (p ≤ q ∧ q < p + (b :: t).length) := by simp; omega
        rw [if_neg h, if_neg h', if_neg hq]

/-- A run stores to no byte outside `p div 8 .. ceil8(p + n) - 1`. -/
theorem Memory.read_writeRun (t : Bits) (m : Memory) (p q : Nat) (h : q < p / 8 ∨ ceil8 (p + t.length) ≤ q) :
    Memory.read (Memory.writeRun m p t) q = Memory.read m q := by
  induction t generalizing m p with
  | nil => rfl
  | cons b t ih =>
    unfold ceil8 at h ih
    simp only [List.length_cons] at h
    rw [Memory.writeRun, ih _ _ (by omega), Memory.setBit, Memory.read_write_of_ne]
    omega

@[simp] theorem Memory.writeRun_append (t u : Bits) (m : Memory) (p : Nat) :
    Memory.writeRun m p (t ++ u) = Memory.writeRun (Memory.writeRun m p t) (p + t.length) u := by
  induction t generalizing m p with
  | nil => rfl
  | cons b t ih => simp [Memory.writeRun, ih, Nat.add_assoc, Nat.add_comm 1]

@[simp] theorem Memory.length_readRun (m : Memory) (p n : Nat) : (Memory.readRun m p n).length = n := by
  induction n generalizing p with
  | zero => rfl
  | succ n ih => simp [Memory.readRun, ih]

/-- Bit j of a run read is the bit at position `p + j` (rule R150). -/
theorem Memory.getD_readRun (m : Memory) (p n j : Nat) (h : j < n) :
    (Memory.readRun m p n).getD j false = Memory.bit m (p + j) := by
  induction n generalizing p j with
  | zero => omega
  | succ n ih =>
    cases j with
    | zero => rfl
    | succ j =>
      rw [Memory.readRun, List.getD_cons_succ, ih _ _ (by omega)]
      congr 1; omega

/-- Two buffer spaces with the same bits have the same bytes. -/
theorem Memory.read_eq_of_bits {m m' : Memory} {q : Nat}
    (h : ∀ j, j < 8 → Memory.bit m (8 * q + j) = Memory.bit m' (8 * q + j)) : Memory.read m q = Memory.read m' q := by
  apply BitVec.eq_of_getLsbD_eq
  intro j hj
  have := h j hj
  unfold Memory.bit at this
  rwa [show (8 * q + j) / 8 = q by omega, show (8 * q + j) % 8 = j by omega] at this

/-! ## The canonical form -/

theorem Memory.wf_cons {c : Host.Cell} {m : Memory} :
    Memory.wf (c :: m) = true ↔ c.2 ≠ 0 ∧ (∀ d ∈ m, c.1 < d.1) ∧ Memory.wf m = true := by
  simp [Memory.wf, and_assoc]

theorem Memory.wf_filter {m : Memory} (p : Host.Cell → Bool) (h : Memory.wf m = true) :
    Memory.wf (m.filter p) = true := by
  induction m with
  | nil => rfl
  | cons c m ih =>
    obtain ⟨h0, hlt, hm⟩ := Memory.wf_cons.1 h
    rw [List.filter_cons]
    split
    · exact Memory.wf_cons.2 ⟨h0, fun d hd => hlt d (List.mem_of_mem_filter hd), ih hm⟩
    · exact ih hm

theorem Memory.wf_insert {m : Memory} {a : Nat} {b : Byte} (hb : b ≠ 0) (ha : ∀ c ∈ m, c.1 ≠ a)
    (h : Memory.wf m = true) : Memory.wf (Memory.insert a b m) = true := by
  induction m with
  | nil => exact Memory.wf_cons.2 ⟨hb, by simp, rfl⟩
  | cons c m ih =>
    obtain ⟨h0, hlt, hm⟩ := Memory.wf_cons.1 h
    have hc : c.1 ≠ a := ha c (by simp)
    simp only [Memory.insert]
    split
    · rename_i hac
      refine Memory.wf_cons.2 ⟨hb, ?_, h⟩
      rintro d hd
      rcases List.mem_cons.1 hd with rfl | hd
      · exact hac
      · exact Nat.lt_trans hac (hlt d hd)
    · refine Memory.wf_cons.2 ⟨h0, ?_, ih (fun d hd => ha d (by simp [hd])) hm⟩
      rintro d hd
      rcases Memory.mem_insert.1 hd with rfl | hd
      · show c.1 < a; omega
      · exact hlt d hd

/-- A write keeps the canonical form. -/
theorem Memory.wf_write {m : Memory} (a : Nat) (b : Byte) (h : Memory.wf m = true) :
    Memory.wf (Memory.write m a b) = true := by
  unfold Memory.write
  split
  · exact Memory.wf_filter _ h
  · rename_i hb
    exact Memory.wf_insert hb (by simp) (Memory.wf_filter _ h)

theorem Memory.wf_writeRun (t : Bits) {m : Memory} (p : Nat) (h : Memory.wf m = true) :
    Memory.wf (Memory.writeRun m p t) = true := by
  induction t generalizing m p with
  | nil => exact h
  | cons b t ih => exact ih _ (Memory.wf_write _ _ h)

theorem Memory.wf_take {m : Memory} (n : Nat) (h : Memory.wf m = true) : Memory.wf (Memory.take m n) = true :=
  Memory.wf_filter _ h

/-- A run lists no cell beyond those it stores to. -/
theorem Memory.lt_of_mem_writeRun (t : Bits) {m : Memory} {p n : Nat} (hm : ∀ c ∈ m, c.1 < n)
    (hp : p + t.length ≤ 8 * n) : ∀ c ∈ Memory.writeRun m p t, c.1 < n := by
  induction t generalizing m p with
  | nil => exact hm
  | cons b t ih =>
    simp only [List.length_cons] at hp
    refine ih (fun c hc => ?_) (by omega)
    rcases Memory.mem_write hc with h | h
    · omega
    · exact hm c h

end Sys2Proof.Machine
end

