-- ==== Sys2Proof/Laws/State.lean ====
section
/-! SUPPORT. The fields of a state after each named update, and register access after it: the lemmas that keep later
proofs from unfolding a record update. -/

namespace Sys2Proof.Machine

open Sys2Proof

/-! ### `State.setX` -/

@[simp] theorem State.setX_cfg (s : State) (r : XReg) (w : Word) : (s.setX r w).cfg = s.cfg := rfl
@[simp] theorem State.setX_x (s : State) (r : XReg) (w : Word) : (s.setX r w).x = s.x.set r w := rfl
@[simp] theorem State.setX_v (s : State) (r : XReg) (w : Word) : (s.setX r w).v = s.v := rfl
@[simp] theorem State.setX_wcap (s : State) (r : XReg) (w : Word) : (s.setX r w).wcap = s.wcap := rfl
@[simp] theorem State.setX_wpos (s : State) (r : XReg) (w : Word) : (s.setX r w).wpos = s.wpos := rfl
@[simp] theorem State.setX_wbuf (s : State) (r : XReg) (w : Word) : (s.setX r w).wbuf = s.wbuf := rfl
@[simp] theorem State.setX_rlen (s : State) (r : XReg) (w : Word) : (s.setX r w).rlen = s.rlen := rfl
@[simp] theorem State.setX_rpos (s : State) (r : XReg) (w : Word) : (s.setX r w).rpos = s.rpos := rfl
@[simp] theorem State.setX_rbuf (s : State) (r : XReg) (w : Word) : (s.setX r w).rbuf = s.rbuf := rfl
@[simp] theorem State.setX_ahwm (s : State) (r : XReg) (w : Word) : (s.setX r w).ahwm = s.ahwm := rfl
@[simp] theorem State.setX_awin (s : State) (r : XReg) (w : Word) : (s.setX r w).awin = s.awin := rfl
@[simp] theorem State.setX_fsr (s : State) (r : XReg) (w : Word) : (s.setX r w).fsr = s.fsr := rfl
@[simp] theorem State.setX_din (s : State) (r : XReg) (w : Word) : (s.setX r w).din = s.din := rfl
@[simp] theorem State.setX_pending (s : State) (r : XReg) (w : Word) : (s.setX r w).pending = s.pending := rfl
@[simp] theorem State.setX_responses (s : State) (r : XReg) (w : Word) : (s.setX r w).responses = s.responses := rfl

/-! ### `State.setV` -/

@[simp] theorem State.setV_cfg (s : State) (r : VReg) (b : Bits) : (s.setV r b).cfg = s.cfg := rfl
@[simp] theorem State.setV_x (s : State) (r : VReg) (b : Bits) : (s.setV r b).x = s.x := rfl
@[simp] theorem State.setV_v (s : State) (r : VReg) (b : Bits) : (s.setV r b).v = s.v.set r b := rfl
@[simp] theorem State.setV_wcap (s : State) (r : VReg) (b : Bits) : (s.setV r b).wcap = s.wcap := rfl
@[simp] theorem State.setV_wpos (s : State) (r : VReg) (b : Bits) : (s.setV r b).wpos = s.wpos := rfl
@[simp] theorem State.setV_wbuf (s : State) (r : VReg) (b : Bits) : (s.setV r b).wbuf = s.wbuf := rfl
@[simp] theorem State.setV_rlen (s : State) (r : VReg) (b : Bits) : (s.setV r b).rlen = s.rlen := rfl
@[simp] theorem State.setV_rpos (s : State) (r : VReg) (b : Bits) : (s.setV r b).rpos = s.rpos := rfl
@[simp] theorem State.setV_rbuf (s : State) (r : VReg) (b : Bits) : (s.setV r b).rbuf = s.rbuf := rfl
@[simp] theorem State.setV_ahwm (s : State) (r : VReg) (b : Bits) : (s.setV r b).ahwm = s.ahwm := rfl
@[simp] theorem State.setV_awin (s : State) (r : VReg) (b : Bits) : (s.setV r b).awin = s.awin := rfl
@[simp] theorem State.setV_fsr (s : State) (r : VReg) (b : Bits) : (s.setV r b).fsr = s.fsr := rfl
@[simp] theorem State.setV_din (s : State) (r : VReg) (b : Bits) : (s.setV r b).din = s.din := rfl
@[simp] theorem State.setV_pending (s : State) (r : VReg) (b : Bits) : (s.setV r b).pending = s.pending := rfl
@[simp] theorem State.setV_responses (s : State) (r : VReg) (b : Bits) : (s.setV r b).responses = s.responses := rfl

/-! ### `State.answer` -/

@[simp] theorem State.answer_cfg (s : State) (st : Status) (d : Word) : (s.answer st d).cfg = s.cfg := rfl
@[simp] theorem State.answer_x (s : State) (st : Status) (d : Word) : (s.answer st d).x = s.x := rfl
@[simp] theorem State.answer_v (s : State) (st : Status) (d : Word) : (s.answer st d).v = s.v := rfl
@[simp] theorem State.answer_wcap (s : State) (st : Status) (d : Word) : (s.answer st d).wcap = s.wcap := rfl
@[simp] theorem State.answer_wpos (s : State) (st : Status) (d : Word) : (s.answer st d).wpos = s.wpos := rfl
@[simp] theorem State.answer_wbuf (s : State) (st : Status) (d : Word) : (s.answer st d).wbuf = s.wbuf := rfl
@[simp] theorem State.answer_rlen (s : State) (st : Status) (d : Word) : (s.answer st d).rlen = s.rlen := rfl
@[simp] theorem State.answer_rpos (s : State) (st : Status) (d : Word) : (s.answer st d).rpos = s.rpos := rfl
@[simp] theorem State.answer_rbuf (s : State) (st : Status) (d : Word) : (s.answer st d).rbuf = s.rbuf := rfl
@[simp] theorem State.answer_ahwm (s : State) (st : Status) (d : Word) : (s.answer st d).ahwm = s.ahwm := rfl
@[simp] theorem State.answer_awin (s : State) (st : Status) (d : Word) : (s.answer st d).awin = s.awin := rfl
@[simp] theorem State.answer_fsr (s : State) (st : Status) (d : Word) : (s.answer st d).fsr = s.fsr := rfl
@[simp] theorem State.answer_din (s : State) (st : Status) (d : Word) : (s.answer st d).din = s.din := rfl
@[simp] theorem State.answer_pending (s : State) (st : Status) (d : Word) : (s.answer st d).pending = s.pending := rfl
@[simp] theorem State.answer_responses (s : State) (st : Status) (d : Word) : (s.answer st d).responses = s.responses ++ [⟨st, d⟩] := rfl

/-! ### `State.takeFault` -/

@[simp] theorem State.takeFault_cfg (s : State) (k : FaultKind) : (s.takeFault k).cfg = s.cfg := rfl
@[simp] theorem State.takeFault_x (s : State) (k : FaultKind) : (s.takeFault k).x = s.x := rfl
@[simp] theorem State.takeFault_v (s : State) (k : FaultKind) : (s.takeFault k).v = s.v := rfl
@[simp] theorem State.takeFault_wcap (s : State) (k : FaultKind) : (s.takeFault k).wcap = s.wcap := rfl
@[simp] theorem State.takeFault_wpos (s : State) (k : FaultKind) : (s.takeFault k).wpos = s.wpos := rfl
@[simp] theorem State.takeFault_wbuf (s : State) (k : FaultKind) : (s.takeFault k).wbuf = s.wbuf := rfl
@[simp] theorem State.takeFault_rlen (s : State) (k : FaultKind) : (s.takeFault k).rlen = s.rlen := rfl
@[simp] theorem State.takeFault_rpos (s : State) (k : FaultKind) : (s.takeFault k).rpos = s.rpos := rfl
@[simp] theorem State.takeFault_rbuf (s : State) (k : FaultKind) : (s.takeFault k).rbuf = s.rbuf := rfl
@[simp] theorem State.takeFault_ahwm (s : State) (k : FaultKind) : (s.takeFault k).ahwm = s.ahwm := rfl
@[simp] theorem State.takeFault_awin (s : State) (k : FaultKind) : (s.takeFault k).awin = s.awin := rfl
@[simp] theorem State.takeFault_fsr (s : State) (k : FaultKind) : (s.takeFault k).fsr = setFsr s.fsr k := rfl
@[simp] theorem State.takeFault_din (s : State) (k : FaultKind) : (s.takeFault k).din = s.din := rfl
@[simp] theorem State.takeFault_pending (s : State) (k : FaultKind) : (s.takeFault k).pending = s.pending := rfl
@[simp] theorem State.takeFault_responses (s : State) (k : FaultKind) : (s.takeFault k).responses = s.responses ++ [⟨.fault k, 0⟩] := rfl

/-! ### `State.present` -/

@[simp] theorem State.present_cfg (s : State) (t : Transaction) (later : List Transaction) : (s.present t later).cfg = s.cfg := rfl
@[simp] theorem State.present_x (s : State) (t : Transaction) (later : List Transaction) : (s.present t later).x = s.x := rfl
@[simp] theorem State.present_v (s : State) (t : Transaction) (later : List Transaction) : (s.present t later).v = s.v := rfl
@[simp] theorem State.present_wcap (s : State) (t : Transaction) (later : List Transaction) : (s.present t later).wcap = s.wcap := rfl
@[simp] theorem State.present_wpos (s : State) (t : Transaction) (later : List Transaction) : (s.present t later).wpos = s.wpos := rfl
@[simp] theorem State.present_wbuf (s : State) (t : Transaction) (later : List Transaction) : (s.present t later).wbuf = s.wbuf := rfl
@[simp] theorem State.present_rlen (s : State) (t : Transaction) (later : List Transaction) : (s.present t later).rlen = s.rlen := rfl
@[simp] theorem State.present_rpos (s : State) (t : Transaction) (later : List Transaction) : (s.present t later).rpos = s.rpos := rfl
@[simp] theorem State.present_rbuf (s : State) (t : Transaction) (later : List Transaction) : (s.present t later).rbuf = s.rbuf := rfl
@[simp] theorem State.present_ahwm (s : State) (t : Transaction) (later : List Transaction) : (s.present t later).ahwm = s.ahwm := rfl
@[simp] theorem State.present_awin (s : State) (t : Transaction) (later : List Transaction) : (s.present t later).awin = s.awin := rfl
@[simp] theorem State.present_fsr (s : State) (t : Transaction) (later : List Transaction) : (s.present t later).fsr = s.fsr := rfl
@[simp] theorem State.present_din (s : State) (t : Transaction) (later : List Transaction) : (s.present t later).din = t.din := rfl
@[simp] theorem State.present_pending (s : State) (t : Transaction) (later : List Transaction) : (s.present t later).pending = later := rfl
@[simp] theorem State.present_responses (s : State) (t : Transaction) (later : List Transaction) : (s.present t later).responses = s.responses := rfl

/-! ### Register access -/

@[simp] theorem State.getX_setX_self (s : State) (r : XReg) (w : Word) : (s.setX r w).getX r = w := by
  simp [State.getX]

theorem State.getX_setX (s : State) (r q : XReg) (w : Word) :
    (s.setX r w).getX q = if q = r then w else s.getX q := by
  by_cases h : q = r
  · simp [h]
  · have : (r : Nat) ≠ q := fun e => h (Fin.ext e.symm)
    simp [State.getX, h, this]

@[simp] theorem State.getX_setX_of_ne (s : State) (r q : XReg) (w : Word) (h : q ≠ r) :
    (s.setX r w).getX q = s.getX q := by simp [State.getX_setX, h]

@[simp] theorem State.getV_setV_self (s : State) (r : VReg) (b : Bits) : (s.setV r b).getV r = b := by
  simp [State.getV]

theorem State.getV_setV (s : State) (r q : VReg) (b : Bits) :
    (s.setV r b).getV q = if q = r then b else s.getV q := by
  by_cases h : q = r
  · simp [h]
  · have : (r : Nat) ≠ q := fun e => h (Fin.ext e.symm)
    simp [State.getV, h, this]

@[simp] theorem State.getV_setV_of_ne (s : State) (r q : VReg) (b : Bits) (h : q ≠ r) :
    (s.setV r b).getV q = s.getV q := by simp [State.getV_setV, h]

@[simp] theorem State.getV_setX (s : State) (r : XReg) (w : Word) (q : VReg) : (s.setX r w).getV q = s.getV q := rfl
@[simp] theorem State.getVN_setX (s : State) (r : XReg) (w : Word) (q : VReg) : (s.setX r w).getVN q = s.getVN q := rfl
@[simp] theorem State.aw_setX (s : State) (r : XReg) (w : Word) : (s.setX r w).aw = s.aw := rfl
@[simp] theorem State.getX_setV (s : State) (r : VReg) (b : Bits) (q : XReg) : (s.setV r b).getX q = s.getX q := rfl
@[simp] theorem State.aw_setV (s : State) (r : VReg) (b : Bits) : (s.setV r b).aw = s.aw := rfl
@[simp] theorem State.getX_answer (s : State) (st : Status) (d : Word) (q : XReg) : (s.answer st d).getX q = s.getX q := rfl
@[simp] theorem State.getV_answer (s : State) (st : Status) (d : Word) (q : VReg) : (s.answer st d).getV q = s.getV q := rfl
@[simp] theorem State.getVN_answer (s : State) (st : Status) (d : Word) (q : VReg) : (s.answer st d).getVN q = s.getVN q := rfl
@[simp] theorem State.aw_answer (s : State) (st : Status) (d : Word) : (s.answer st d).aw = s.aw := rfl
@[simp] theorem State.getX_takeFault (s : State) (k : FaultKind) (q : XReg) : (s.takeFault k).getX q = s.getX q := rfl
@[simp] theorem State.getV_takeFault (s : State) (k : FaultKind) (q : VReg) : (s.takeFault k).getV q = s.getV q := rfl
@[simp] theorem State.getVN_takeFault (s : State) (k : FaultKind) (q : VReg) : (s.takeFault k).getVN q = s.getVN q := rfl
@[simp] theorem State.aw_takeFault (s : State) (k : FaultKind) : (s.takeFault k).aw = s.aw := rfl
@[simp] theorem State.getX_present (s : State) (t : Transaction) (later : List Transaction) (q : XReg) : (s.present t later).getX q = s.getX q := rfl
@[simp] theorem State.getV_present (s : State) (t : Transaction) (later : List Transaction) (q : VReg) : (s.present t later).getV q = s.getV q := rfl
@[simp] theorem State.getVN_present (s : State) (t : Transaction) (later : List Transaction) (q : VReg) : (s.present t later).getVN q = s.getVN q := rfl
@[simp] theorem State.aw_present (s : State) (t : Transaction) (later : List Transaction) : (s.present t later).aw = s.aw := rfl

@[simp] theorem State.getVN_setV_self (s : State) (r : VReg) (b : Bits) : (s.setV r b).getVN r = b.length := by
  simp [State.getVN]

@[simp] theorem State.getVN_setV_of_ne (s : State) (r q : VReg) (b : Bits) (h : q ≠ r) :
    (s.setV r b).getVN q = s.getVN q := by simp [State.getVN, h]

/-! ### The reset state -/

@[simp] theorem State.getX_resetWith (c : Config) (r : XReg) : (State.resetWith c).getX r = 0 := by
  simp [State.getX, State.resetWith]

@[simp] theorem State.getV_resetWith (c : Config) (r : VReg) : (State.resetWith c).getV r = [] := by
  simp [State.getV, State.resetWith]

end Sys2Proof.Machine
end

