-- ==== Sys2Proof/Laws/Ops.lean ====
section
/-! SUPPORT. The shared operations: for each, once, everything it can do; and the frames of the named updates. -/

namespace Sys2Proof.Machine

open Sys2Proof

/-! ## Frames are reflexive -/

@[simp] theorem SameX.refl (s : State) : SameX s s := fun _ => rfl
@[simp] theorem SameV.refl (s : State) : SameV s s := fun _ => rfl
@[simp] theorem SameWriter.refl (s : State) : SameWriter s s := ⟨rfl, rfl, fun _ => rfl⟩
@[simp] theorem SameInput.refl (s : State) : SameInput s s := ⟨rfl, fun _ => rfl⟩
@[simp] theorem SameReader.refl (s : State) : SameReader s s := ⟨.refl s, rfl⟩
@[simp] theorem SameTracker.refl (s : State) : SameTracker s s := ⟨rfl, rfl⟩
@[simp] theorem NoChange.refl (s : State) : NoChange s s := ⟨⟨.refl s, .refl s, .refl s, .refl s, .refl s⟩, rfl⟩

/-! ## Responding and faulting -/

@[simp] theorem done_eq (s : State) : done s = .next (s.answer .ok 0) := rfl
@[simp] theorem doneWith_eq (s : State) (d : Word) : doneWith s d = .next (s.answer .ok d) := rfl
@[simp] theorem raise_eq (k : FaultKind) (s : State) : raise k s = .next (s.takeFault k) := rfl

theorem responds_answer (s : State) (st : Status) (d : Word) : Responds s (s.answer st d) st d :=
  ⟨rfl, rfl, rfl, rfl⟩

/-- Fault entry does what rule R203 says. -/
theorem faultEntered_takeFault (k : FaultKind) (s : State) : FaultEntered k s (s.takeFault k) := by
  refine ⟨?_, ⟨rfl, rfl, rfl, rfl⟩, .refl _, .refl _, .refl _, .refl _, .refl _⟩
  cases k <;> rfl

/-- A command that raises a fault. -/
theorem raises_of_eq {i : Instr} {s : State} {k : FaultKind} (h : exec i s = raise k s) : Raises i s k :=
  ⟨_, h, faultEntered_takeFault k s⟩

/-- A command that ends in `done u`, `u` differing from the state before by its effect only. -/
theorem completes_of_eq {i : Instr} {s u : State} {P : State → Prop} (h : exec i s = done u)
    (hr : u.responses = s.responses) (hc : u.cfg = s.cfg) (hd : u.din = s.din) (hp : u.pending = s.pending)
    (hP : P (u.answer .ok 0)) : Completes i s P :=
  ⟨_, h, ⟨by simp [hr], hc, hd, hp⟩, hP⟩

/-- The block's flag of a fault after the fault was entered. -/
theorem flag_setFsr_self (f : BitVec 4) (k : FaultKind) : (setFsr f k).getLsbD (k.code - 1) = true := by
  revert f; cases k <;> decide

/-- The bits are sticky (rule R23). -/
theorem flag_setFsr_of_flag (f : BitVec 4) (k l : FaultKind) (h : f.getLsbD (k.code - 1) = true) :
    (setFsr f l).getLsbD (k.code - 1) = true := by
  unfold setFsr; rw [BitVec.getLsbD_or, h, Bool.true_or]

/-! ## The frame of a register write -/

theorem onlyX_setX_answer (s : State) (d : XReg) (w : Word) : OnlyX d s ((s.setX d w).answer .ok 0) :=
  ⟨fun _ h => s.getX_setX_of_ne _ _ w h, .refl _, .refl _, .refl _, .refl _, rfl⟩

theorem onlyV_setV_answer (s : State) (d : VReg) (b : Bits) : OnlyV d s ((s.setV d b).answer .ok 0) :=
  ⟨fun _ h => s.getV_setV_of_ne _ _ b h, .refl _, .refl _, .refl _, .refl _, rfl⟩

/-! ## The write step (rule R130) -/

/-- The state after a run that fits was appended. -/
def State.appended (s : State) (t : Bits) : State :=
  { s with wbuf := Memory.writeRun s.wbuf s.wpos t, wpos := s.wpos + t.length }

theorem writeBits_fits {t : Bits} {s : State} (h : s.wpos + t.length ≤ 8 * s.wcap) :
    writeBits t s = done (s.appended t) := if_neg (by omega)

theorem writeBits_full {t : Bits} {s : State} (h : 8 * s.wcap < s.wpos + t.length) :
    writeBits t s = raise .capacityError s := if_pos h

theorem writeBits_next {t : Bits} {s s' : State} (h : writeBits t s = .next s') :
    s.wpos + t.length ≤ 8 * s.wcap ∧ s' = (s.appended t).answer .ok 0 ∨
    8 * s.wcap < s.wpos + t.length ∧ s' = s.takeFault .capacityError := by
  by_cases hf : s.wpos + t.length ≤ 8 * s.wcap
  · rw [writeBits_fits hf] at h; cases h; exact .inl ⟨hf, rfl⟩
  · rw [writeBits_full (by omega)] at h; cases h; exact .inr ⟨by omega, rfl⟩

theorem appended_spec (s : State) (t : Bits) (f : Nat → Bool) (hf : ∀ j, j < t.length → t.getD j false = f j) :
    Appended t.length f s ((s.appended t).answer .ok 0) := by
  refine ⟨rfl, rfl, fun p => ?_, fun q hq => Memory.read_writeRun t _ _ _ hq, .refl _, .refl _, .refl _, .refl _, rfl⟩
  show Memory.bit (Memory.writeRun s.wbuf s.wpos t) p = _
  rw [Memory.bit_writeRun]
  split
  · exact hf _ (by omega)
  · rfl

/-! ## The read step (rule R150) -/

theorem readBits_there {n : Nat} {use : Bits → State → State} {s : State} (h : s.rpos + n ≤ 8 * s.rlen) :
    readBits n use s = done (use (Memory.readRun s.rbuf s.rpos n) { s with rpos := s.rpos + n }) := if_neg (by omega)

theorem readBits_short {n : Nat} {use : Bits → State → State} {s : State} (h : 8 * s.rlen < s.rpos + n) :
    readBits n use s = raise .formatError s := if_pos h

theorem readBits_next {n : Nat} {use : Bits → State → State} {s s' : State} (h : readBits n use s = .next s') :
    s.rpos + n ≤ 8 * s.rlen ∧
      s' = (use (Memory.readRun s.rbuf s.rpos n) { s with rpos := s.rpos + n }).answer .ok 0 ∨
    8 * s.rlen < s.rpos + n ∧ s' = s.takeFault .formatError := by
  by_cases hf : s.rpos + n ≤ 8 * s.rlen
  · rw [readBits_there hf] at h; cases h; exact .inl ⟨hf, rfl⟩
  · rw [readBits_short (by omega)] at h; cases h; exact .inr ⟨by omega, rfl⟩

/-! ## The bit operations of a vector register -/

theorem replaceBit_next {a : VReg} {i : Nat} {b : Bool} {s s' : State} (h : replaceBit a i b s = .next s') :
    i < s.getVN a ∧ s' = (s.setV a (setBitAt (s.getV a) i b)).answer .ok 0 ∨
    s.getVN a ≤ i ∧ s' = s.takeFault .operandError := by
  unfold replaceBit at h
  split at h
  · cases h; exact .inr ⟨by assumption, rfl⟩
  · cases h; exact .inl ⟨by omega, rfl⟩

theorem testBit_next {d : XReg} {b : VReg} {i : Nat} {s s' : State} (h : testBit d b i s = .next s') :
    i < s.getVN b ∧ s' = (s.setX d (zextBit (bitAt (s.getV b) i))).answer .ok 0 ∨
    s.getVN b ≤ i ∧ s' = s.takeFault .operandError := by
  unfold testBit at h
  split at h
  · cases h; exact .inr ⟨by assumption, rfl⟩
  · cases h; exact .inl ⟨by omega, rfl⟩

theorem shiftLeft_next {a : VReg} {k : Nat} {s s' : State} (h : shiftLeft a k s = .next s') :
    s' = (s.setV a (shl (s.getV a) k)).answer .ok 0 := by cases h; rfl

theorem onSeqs_next {op : SeqNo → SeqNo → Word} {d b c : XReg} {s s' : State} (h : onSeqs op d b c s = .next s') :
    s' = (s.setX d (op (seqOf (s.getX b)) (seqOf (s.getX c)))).answer .ok 0 := by cases h; rfl

/-! ## The step -/

theorem step_nil {s : State} (h : s.pending = []) : step s = .next s := by
  unfold step; rw [h]

theorem step_ok {s : State} {t : Transaction} {later : List Transaction} {i : Instr} (h : s.pending = t :: later)
    (hd : decode t.cw = .ok i) : step s = exec i (s.present t later) := by
  unfold step; simp only [h, hd]

theorem step_error {s : State} {t : Transaction} {later : List Transaction} {why : IllegalWord}
    (h : s.pending = t :: later) (hd : decode t.cw = .error why) :
    step s = .next ((s.present t later).takeFault .illegalCommand) := by
  unfold step; simp only [h, hd]; rfl

/-- Everything a step can do: hold, perform a command, or take IllegalCommand. -/
theorem step_cases (s : State) :
    s.pending = [] ∧ step s = .next s ∨
    (∃ t later i, s.pending = t :: later ∧ decode t.cw = .ok i ∧ step s = exec i (s.present t later)) ∨
    (∃ t later why, s.pending = t :: later ∧ decode t.cw = .error why ∧
      step s = .next ((s.present t later).takeFault .illegalCommand)) := by
  match h : s.pending with
  | [] => exact .inl ⟨rfl, step_nil h⟩
  | t :: later =>
    match hd : decode t.cw with
    | .ok i => exact .inr (.inl ⟨t, later, i, rfl, hd, step_ok h hd⟩)
    | .error why => exact .inr (.inr ⟨t, later, why, rfl, hd, step_error h hd⟩)

end Sys2Proof.Machine
end

