-- ==== Sys2Proof/Laws/Exec.lean ====
section
/-! SUPPORT. Everything a command can do, said once: it takes the fault of the table of rule R201, or it is performed
and answered. -/

namespace Sys2Proof.Machine

open Sys2Proof

/-- The data word of a successful response (rule R70). -/
def State.doutOf (i : Instr) (s : State) : Word :=
  match i with
  | .movo a => s.getX a
  | _ => 0

/-- The state after the reader consumed `n` bits. -/
def State.consumed (s : State) (n : Nat) : State := { s with rpos := s.rpos + n }

/-- The run of the next `n` bits of the reader. -/
def State.run (s : State) (n : Nat) : Bits := Memory.readRun s.rbuf s.rpos n

/-- The state after `ACK.RX` of a sequence number. -/
def State.acked (s : State) (q : SeqNo) : State :=
  if sdiff16 q s.ahwm = 0 then s
  else if 0 < sdiff16 q s.ahwm then { s with awin := advanceWindow s.awin (sdiff16 q s.ahwm).toNat, ahwm := q }
  else { s with awin := markOlder s.awin (-sdiff16 q s.ahwm).toNat }

/-- The state a command that raises nothing leaves, before its response is given. -/
def State.performed (i : Instr) (s : State) : State :=
  match i with
  | .nop => s
  | .li a imm => s.setX a (zext imm)
  | .movi a => s.setX a s.din
  | .movo _ => s
  | .getf a => s.setX a (zext s.fsr.toNat)
  | .clrf => { s with fsr := 0 }
  | .srst => { State.resetWith s.cfg with din := s.din, pending := s.pending, responses := s.responses }
  | .bvNew a imm => s.setV a (zeros imm)
  | .bvSeti a imm => s.setV a (setBitAt (s.getV a) imm true)
  | .bvClri a imm => s.setV a (setBitAt (s.getV a) imm false)
  | .bvTsti a b imm => s.setX a (zextBit (bitAt (s.getV b) imm))
  | .bvSet a b => s.setV a (setBitAt (s.getV a) (s.getX b).toNat true)
  | .bvClr a b => s.setV a (setBitAt (s.getV a) (s.getX b).toNat false)
  | .bvTst a b c => s.setX a (zextBit (bitAt (s.getV b) (s.getX c).toNat))
  | .bvShli a imm => s.setV a (shl (s.getV a) imm)
  | .bvShl a b => s.setV a (shl (s.getV a) (s.getX b).toNat)
  | .bvClra a => s.setV a (zeros (s.getVN a))
  | .bvLen a b => s.setX a (zext (s.getVN b))
  | .wrInit a => { s with wcap := (s.getX a).toNat, wbuf := [], wpos := 0 }
  | .wrBit a => s.appended (lowBits 1 (s.getX a))
  | .wrU8 a => s.appended (lowBits 8 (s.getX a))
  | .wrU16 a => s.appended (lowBits 16 (s.getX a))
  | .wrU32 a => s.appended (lowBits 32 (s.getX a))
  | .wrU64 a => s.appended (lowBits 64 (s.getX a))
  | .wrV a => s.appended (s.getV a)
  | .wrPad =>
    { s with wbuf := Memory.writeRun s.wbuf s.wpos (zeros (8 * ceil8 s.wpos - s.wpos)), wpos := 8 * ceil8 s.wpos }
  | .wrPos a => s.setX a (zext s.wpos)
  | .wrLen a => s.setX a (zext (ceil8 s.wpos))
  | .wrGetb a b => s.setX a (zext (Memory.read s.wbuf (s.getX b).toNat).toNat)
  | .rdInit => { s with rlen := 0, rbuf := [], rpos := 0 }
  | .rdPutb a => { s with rbuf := Memory.write s.rbuf s.rlen (byteOf (s.getX a)), rlen := s.rlen + 1 }
  | .rdLdw => { s with rbuf := Memory.take s.wbuf (ceil8 s.wpos), rlen := ceil8 s.wpos, rpos := 0 }
  | .rdBit a => (s.consumed 1).setX a (zext (ofBits (s.run 1)))
  | .rdU8 a => (s.consumed 8).setX a (zext (ofBits (s.run 8)))
  | .rdU16 a => (s.consumed 16).setX a (zext (ofBits (s.run 16)))
  | .rdI16 a => (s.consumed 16).setX a (sext 16 (ofBits (s.run 16)))
  | .rdU32 a => (s.consumed 32).setX a (zext (ofBits (s.run 32)))
  | .rdI32 a => (s.consumed 32).setX a (sext 32 (ofBits (s.run 32)))
  | .rdU64 a => (s.consumed 64).setX a (zext (ofBits (s.run 64)))
  | .rdV a imm => (s.consumed imm).setV a (s.run imm)
  | .rdPad => { s with rpos := 8 * ceil8 s.rpos }
  | .rdPos a => s.setX a (zext s.rpos)
  | .rdLen a => s.setX a (zext s.rlen)
  | .seqCmp a b c => s.setX a (sextInt (seqVerdict (seqOf (s.getX b)) (seqOf (s.getX c))))
  | .seqDif a b c => s.setX a (sextInt (sdiff16 (seqOf (s.getX b)) (seqOf (s.getX c))))
  | .seqAdd a b c => s.setX a (zext (seqOf (s.getX b) + seqOf (s.getX c)).toNat)
  | .seqSub a b c => s.setX a (zext (seqOf (s.getX b) - seqOf (s.getX c)).toNat)
  | .ackInit a imm => { s with awin := zeros imm, ahwm := seqOf (s.getX a) }
  | .ackRx a => s.acked (seqOf (s.getX a))
  | .ackHwm a => s.setX a (zext s.ahwm.toNat)
  | .ackWin a => s.setV a s.awin
  | .ackIsrx a b => s.setX a (zextBit (knownReceived s.ahwm s.awin (seqOf (s.getX b))))

/-- The state, beyond rule R28, in which a command would reach a byte that does not exist (assumption log 6). -/
def State.beyond (i : Instr) (s : State) : Prop :=
  match i with
  | .wrPad => s.wpos < 8 * ceil8 s.wpos ∧ 8 * s.wcap < 8 * ceil8 s.wpos
  | .wrGetb _ b => s.wcap ≤ (s.getX b).toNat ∧ (s.getX b).toNat < ceil8 s.wpos
  | .rdLdw => s.wcap < ceil8 s.wpos
  | _ => False

theorem ite_operand {c : Prop} [Decidable c] {k : FaultKind} {s u : State} (f : Option FaultKind)
    (hf : f = if c then some k else none) :
    (∃ k', f = some k' ∧ (if c then raise k s else done u) = .next (s.takeFault k')) ∨
    (f = none ∧ (if c then raise k s else done u) = .next (u.answer .ok 0)) := by
  by_cases h : c
  · exact .inl ⟨k, by rw [hf, if_pos h], by rw [if_pos h]; rfl⟩
  · exact .inr ⟨by rw [hf, if_neg h], by rw [if_neg h]; rfl⟩

theorem ite_decide {c : Prop} [Decidable c] {α : Type} (a b : α) :
    (if decide c = true then a else b) = if c then a else b := by
  by_cases h : c <;> simp [h]

/-- What a command does, in one equation. -/
theorem exec_spec (i : Instr) (s : State) :
    s.beyond i ∧ exec i s = .fault .noSuchByte ∨
    (∃ k, faultOf i s = some k ∧ exec i s = .next (s.takeFault k)) ∨
    (faultOf i s = none ∧ exec i s = .next ((s.performed i).answer .ok (s.doutOf i))) := by
  cases i
  case bvNew | bvSeti | bvClri | bvTsti | bvSet | bvClr | bvTst | wrInit | rdPutb | ackInit =>
    exact .inr (ite_operand _ (ite_decide _ _))
  case wrBit | wrU8 | wrU16 | wrU32 | wrU64 =>
    exact .inr (ite_operand _ (by simp [faultOf]))
  case wrV => exact .inr (ite_operand _ rfl)
  case rdBit | rdU8 | rdU16 | rdI16 | rdU32 | rdI32 | rdU64 => exact .inr (ite_operand _ rfl)
  case rdV a n =>
    by_cases h : s.cfg.vmax < n
    · exact .inr (.inl ⟨.operandError, by simp [faultOf, h], if_pos h⟩)
    · refine .inr ?_
      have e : exec (.rdV a n) s = readBits n (fun t s' => s'.setV a t) s := if_neg h
      rw [e]
      exact ite_operand _ (by simp [faultOf, h])
  case wrPad =>
    by_cases h : s.wpos < 8 * ceil8 s.wpos ∧ 8 * s.wcap < 8 * ceil8 s.wpos
    · exact .inl ⟨h, if_pos h⟩
    · exact .inr (.inr ⟨rfl, if_neg h⟩)
  case wrGetb a b =>
    by_cases h : ceil8 s.wpos ≤ (s.getX b).toNat
    · exact .inr (.inl ⟨.operandError, by simp [faultOf, h], if_pos h⟩)
    · by_cases h2 : s.wcap ≤ (s.getX b).toNat
      · exact .inl ⟨⟨h2, by omega⟩, (if_neg h).trans (if_pos h2)⟩
      · exact .inr (.inr ⟨by simp [faultOf, h], (if_neg h).trans (if_neg h2)⟩)
  case rdLdw =>
    by_cases h : s.wcap < ceil8 s.wpos
    · exact .inl ⟨h, if_pos h⟩
    · exact .inr (.inr ⟨rfl, if_neg h⟩)
  case ackRx a =>
    refine .inr (.inr ⟨rfl, ?_⟩)
    simp only [exec, execAckRx, State.performed, State.acked]
    split
    · rfl
    · split <;> rfl
  all_goals exact .inr (.inr ⟨rfl, rfl⟩)

/-- The two ways a command reaches a next state. -/
theorem exec_next {i : Instr} {s t : State} (h : exec i s = .next t) :
    (∃ k, faultOf i s = some k ∧ t = s.takeFault k) ∨
    (faultOf i s = none ∧ t = (s.performed i).answer .ok (s.doutOf i)) := by
  rcases exec_spec i s with ⟨_, e⟩ | ⟨k, hk, e⟩ | ⟨hn, e⟩
  · rw [e] at h; cases h
  · rw [e] at h; cases h; exact .inl ⟨k, hk, rfl⟩
  · rw [e] at h; cases h; exact .inr ⟨hn, rfl⟩

/-- In the states of rule R28 every byte a command reaches exists. -/
theorem not_beyond_of_wpos_le {s : State} (h : s.wpos ≤ 8 * s.wcap) (i : Instr) : ¬ s.beyond i := by
  cases i
  case wrPad => rintro ⟨h1, h2⟩; unfold ceil8 at *; omega
  case wrGetb => rintro ⟨h1, h2⟩; unfold ceil8 at *; omega
  case rdLdw => intro h1; change _ < _ at h1; unfold ceil8 at *; omega
  all_goals exact id

/-- From a state of rule R28 a command takes the fault of the table or is performed and answered. -/
theorem exec_of_wpos_le {s : State} (h : s.wpos ≤ 8 * s.wcap) (i : Instr) :
    (∃ k, faultOf i s = some k ∧ exec i s = .next (s.takeFault k)) ∨
    (faultOf i s = none ∧ exec i s = .next ((s.performed i).answer .ok (s.doutOf i))) := by
  rcases exec_spec i s with ⟨hb, _⟩ | hr
  · exact absurd hb (not_beyond_of_wpos_le h i)
  · exact hr

/-! ## What a performed command leaves to the host -/

theorem acked_rest (s : State) (q : SeqNo) :
    s.acked q = { s with awin := (s.acked q).awin, ahwm := (s.acked q).ahwm } := by
  unfold State.acked; split
  · rfl
  · split <;> rfl

@[simp] theorem length_acked (s : State) (q : SeqNo) : (s.acked q).awin.length = s.awin.length := by
  unfold State.acked; split
  · rfl
  · split <;> simp

theorem performed_cfg (i : Instr) (s : State) : (s.performed i).cfg = s.cfg := by
  cases i
  case ackRx a => show (s.acked (seqOf (s.getX a))).cfg = s.cfg; rw [acked_rest]
  all_goals rfl

theorem performed_din (i : Instr) (s : State) : (s.performed i).din = s.din := by
  cases i
  case ackRx a => show (s.acked (seqOf (s.getX a))).din = s.din; rw [acked_rest]
  all_goals rfl

theorem performed_pending (i : Instr) (s : State) : (s.performed i).pending = s.pending := by
  cases i
  case ackRx a => show (s.acked (seqOf (s.getX a))).pending = s.pending; rw [acked_rest]
  all_goals rfl

theorem performed_responses (i : Instr) (s : State) : (s.performed i).responses = s.responses := by
  cases i
  case ackRx a => show (s.acked (seqOf (s.getX a))).responses = s.responses; rw [acked_rest]
  all_goals rfl

theorem performed_fsr (i : Instr) (s : State) (h : i ≠ .clrf) (h' : i ≠ .srst) : (s.performed i).fsr = s.fsr := by
  cases i
  case clrf => exact absurd rfl h
  case srst => exact absurd rfl h'
  case ackRx a => show (s.acked (seqOf (s.getX a))).fsr = s.fsr; rw [acked_rest]
  all_goals rfl

/-- The response of a performed command. -/
theorem responds_performed (i : Instr) (s : State) :
    Responds s ((s.performed i).answer .ok (s.doutOf i)) .ok (s.doutOf i) :=
  ⟨by simp [performed_responses], performed_cfg i s, performed_din i s, performed_pending i s⟩

end Sys2Proof.Machine
end

