-- ==== Sys2Proof/Laws/PerInstr.lean ====
section
/-! SUPPORT. The family `OpcodeField`: the word of a well-formed command carries the command's opcode in bits 31:24
(rules R71 and R74), and its reserved bits are zero. One lemma per command. -/

namespace Sys2Proof.Laws

open Sys2Proof

/-- The opcode of a command (rule R74). -/
def OpcodeField.opcode : Instr → Nat
  | .nop => 0x00
  | .li _ _ => 0x01
  | .movi _ => 0x02
  | .movo _ => 0x03
  | .getf _ => 0x04
  | .clrf => 0x05
  | .srst => 0x06
  | .bvNew _ _ => 0x10
  | .bvSeti _ _ => 0x11
  | .bvClri _ _ => 0x12
  | .bvTsti _ _ _ => 0x13
  | .bvSet _ _ => 0x14
  | .bvClr _ _ => 0x15
  | .bvTst _ _ _ => 0x16
  | .bvShli _ _ => 0x17
  | .bvShl _ _ => 0x18
  | .bvClra _ => 0x19
  | .bvLen _ _ => 0x1A
  | .wrInit _ => 0x20
  | .wrBit _ => 0x21
  | .wrU8 _ => 0x22
  | .wrU16 _ => 0x23
  | .wrU32 _ => 0x24
  | .wrU64 _ => 0x25
  | .wrV _ => 0x26
  | .wrPad => 0x27
  | .wrPos _ => 0x28
  | .wrLen _ => 0x29
  | .wrGetb _ _ => 0x2A
  | .rdInit => 0x30
  | .rdPutb _ => 0x31
  | .rdLdw => 0x32
  | .rdBit _ => 0x33
  | .rdU8 _ => 0x34
  | .rdU16 _ => 0x35
  | .rdI16 _ => 0x36
  | .rdU32 _ => 0x37
  | .rdI32 _ => 0x38
  | .rdU64 _ => 0x39
  | .rdV _ _ => 0x3A
  | .rdPad => 0x3B
  | .rdPos _ => 0x3C
  | .rdLen _ => 0x3D
  | .seqCmp _ _ _ => 0x40
  | .seqDif _ _ _ => 0x41
  | .seqAdd _ _ _ => 0x42
  | .seqSub _ _ _ => 0x43
  | .ackInit _ _ => 0x50
  | .ackRx _ => 0x51
  | .ackHwm _ => 0x52
  | .ackWin _ => 0x53
  | .ackIsrx _ _ => 0x54

/-- What the family says of a command. -/
def OpcodeField.Statement (i : Instr) : Prop :=
  i.wf = true → opOf (encode i) = OpcodeField.opcode i ∧ reservedSet (encode i) = false

theorem opcodeField_of {i : Instr} {op a b c imm : Nat} (he : encode i = wordOf op a b c imm)
    (hop : OpcodeField.opcode i = op) (ho : op < 256) (ha : a < 8) (hb : b < 8) (hc : c < 8) (hi : imm < 4096) :
    opOf (encode i) = OpcodeField.opcode i ∧ reservedSet (encode i) = false := by
  rw [he, hop]
  exact ⟨opOf_wordOf ho ha hb hc hi, reservedSet_wordOf ho ha hb hc hi⟩

theorem immOk_lt {imm : Nat} (h : immOk imm = true) : imm < 4096 := of_decide_eq_true h

theorem vreg_lt (r : VReg) : r.val < 8 := by omega

theorem OpcodeField.nop : OpcodeField.Statement .nop :=
  fun _ => opcodeField_of rfl rfl (by decide) (by decide) (by decide) (by decide) (by decide)

theorem OpcodeField.li (a : XReg) (imm : Nat) : OpcodeField.Statement (.li a imm) :=
  fun h => opcodeField_of rfl rfl (by decide) a.isLt (by decide) (by decide) (immOk_lt h)

theorem OpcodeField.movi (a : XReg) : OpcodeField.Statement (.movi a) :=
  fun _ => opcodeField_of rfl rfl (by decide) a.isLt (by decide) (by decide) (by decide)

theorem OpcodeField.movo (a : XReg) : OpcodeField.Statement (.movo a) :=
  fun _ => opcodeField_of rfl rfl (by decide) a.isLt (by decide) (by decide) (by decide)

theorem OpcodeField.getf (a : XReg) : OpcodeField.Statement (.getf a) :=
  fun _ => opcodeField_of rfl rfl (by decide) a.isLt (by decide) (by decide) (by decide)

theorem OpcodeField.clrf : OpcodeField.Statement .clrf :=
  fun _ => opcodeField_of rfl rfl (by decide) (by decide) (by decide) (by decide) (by decide)

theorem OpcodeField.srst : OpcodeField.Statement .srst :=
  fun _ => opcodeField_of rfl rfl (by decide) (by decide) (by decide) (by decide) (by decide)

theorem OpcodeField.bvNew (a : VReg) (imm : Nat) : OpcodeField.Statement (.bvNew a imm) :=
  fun h => opcodeField_of rfl rfl (by decide) (vreg_lt a) (by decide) (by decide) (immOk_lt h)

theorem OpcodeField.bvSeti (a : VReg) (imm : Nat) : OpcodeField.Statement (.bvSeti a imm) :=
  fun h => opcodeField_of rfl rfl (by decide) (vreg_lt a) (by decide) (by decide) (immOk_lt h)

theorem OpcodeField.bvClri (a : VReg) (imm : Nat) : OpcodeField.Statement (.bvClri a imm) :=
  fun h => opcodeField_of rfl rfl (by decide) (vreg_lt a) (by decide) (by decide) (immOk_lt h)

theorem OpcodeField.bvTsti (a : XReg) (b : VReg) (imm : Nat) : OpcodeField.Statement (.bvTsti a b imm) :=
  fun h => opcodeField_of rfl rfl (by decide) a.isLt (vreg_lt b) (by decide) (immOk_lt h)

theorem OpcodeField.bvSet (a : VReg) (b : XReg) : OpcodeField.Statement (.bvSet a b) :=
  fun _ => opcodeField_of rfl rfl (by decide) (vreg_lt a) b.isLt (by decide) (by decide)

theorem OpcodeField.bvClr (a : VReg) (b : XReg) : OpcodeField.Statement (.bvClr a b) :=
  fun _ => opcodeField_of rfl rfl (by decide) (vreg_lt a) b.isLt (by decide) (by decide)

theorem OpcodeField.bvTst (a : XReg) (b : VReg) (c : XReg) : OpcodeField.Statement (.bvTst a b c) :=
  fun _ => opcodeField_of rfl rfl (by decide) a.isLt (vreg_lt b) c.isLt (by decide)

theorem OpcodeField.bvShli (a : VReg) (imm : Nat) : OpcodeField.Statement (.bvShli a imm) :=
  fun h => opcodeField_of rfl rfl (by decide) (vreg_lt a) (by decide) (by decide) (immOk_lt h)

theorem OpcodeField.bvShl (a : VReg) (b : XReg) : OpcodeField.Statement (.bvShl a b) :=
  fun _ => opcodeField_of rfl rfl (by decide) (vreg_lt a) b.isLt (by decide) (by decide)

theorem OpcodeField.bvClra (a : VReg) : OpcodeField.Statement (.bvClra a) :=
  fun _ => opcodeField_of rfl rfl (by decide) (vreg_lt a) (by decide) (by decide) (by decide)

theorem OpcodeField.bvLen (a : XReg) (b : VReg) : OpcodeField.Statement (.bvLen a b) :=
  fun _ => opcodeField_of rfl rfl (by decide) a.isLt (vreg_lt b) (by decide) (by decide)

theorem OpcodeField.wrInit (a : XReg) : OpcodeField.Statement (.wrInit a) :=
  fun _ => opcodeField_of rfl rfl (by decide) a.isLt (by decide) (by decide) (by decide)

theorem OpcodeField.wrBit (a : XReg) : OpcodeField.Statement (.wrBit a) :=
  fun _ => opcodeField_of rfl rfl (by decide) a.isLt (by decide) (by decide) (by decide)

theorem OpcodeField.wrU8 (a : XReg) : OpcodeField.Statement (.wrU8 a) :=
  fun _ => opcodeField_of rfl rfl (by decide) a.isLt (by decide) (by decide) (by decide)

theorem OpcodeField.wrU16 (a : XReg) : OpcodeField.Statement (.wrU16 a) :=
  fun _ => opcodeField_of rfl rfl (by decide) a.isLt (by decide) (by decide) (by decide)

theorem OpcodeField.wrU32 (a : XReg) : OpcodeField.Statement (.wrU32 a) :=
  fun _ => opcodeField_of rfl rfl (by decide) a.isLt (by decide) (by decide) (by decide)

theorem OpcodeField.wrU64 (a : XReg) : OpcodeField.Statement (.wrU64 a) :=
  fun _ => opcodeField_of rfl rfl (by decide) a.isLt (by decide) (by decide) (by decide)

theorem OpcodeField.wrV (a : VReg) : OpcodeField.Statement (.wrV a) :=
  fun _ => opcodeField_of rfl rfl (by decide) (vreg_lt a) (by decide) (by decide) (by decide)

theorem OpcodeField.wrPad : OpcodeField.Statement .wrPad :=
  fun _ => opcodeField_of rfl rfl (by decide) (by decide) (by decide) (by decide) (by decide)

theorem OpcodeField.wrPos (a : XReg) : OpcodeField.Statement (.wrPos a) :=
  fun _ => opcodeField_of rfl rfl (by decide) a.isLt (by decide) (by decide) (by decide)

theorem OpcodeField.wrLen (a : XReg) : OpcodeField.Statement (.wrLen a) :=
  fun _ => opcodeField_of rfl rfl (by decide) a.isLt (by decide) (by decide) (by decide)

theorem OpcodeField.wrGetb (a : XReg) (b : XReg) : OpcodeField.Statement (.wrGetb a b) :=
  fun _ => opcodeField_of rfl rfl (by decide) a.isLt b.isLt (by decide) (by decide)

theorem OpcodeField.rdInit : OpcodeField.Statement .rdInit :=
  fun _ => opcodeField_of rfl rfl (by decide) (by decide) (by decide) (by decide) (by decide)

theorem OpcodeField.rdPutb (a : XReg) : OpcodeField.Statement (.rdPutb a) :=
  fun _ => opcodeField_of rfl rfl (by decide) a.isLt (by decide) (by decide) (by decide)

theorem OpcodeField.rdLdw : OpcodeField.Statement .rdLdw :=
  fun _ => opcodeField_of rfl rfl (by decide) (by decide) (by decide) (by decide) (by decide)

theorem OpcodeField.rdBit (a : XReg) : OpcodeField.Statement (.rdBit a) :=
  fun _ => opcodeField_of rfl rfl (by decide) a.isLt (by decide) (by decide) (by decide)

theorem OpcodeField.rdU8 (a : XReg) : OpcodeField.Statement (.rdU8 a) :=
  fun _ => opcodeField_of rfl rfl (by decide) a.isLt (by decide) (by decide) (by decide)

theorem OpcodeField.rdU16 (a : XReg) : OpcodeField.Statement (.rdU16 a) :=
  fun _ => opcodeField_of rfl rfl (by decide) a.isLt (by decide) (by decide) (by decide)

theorem OpcodeField.rdI16 (a : XReg) : OpcodeField.Statement (.rdI16 a) :=
  fun _ => opcodeField_of rfl rfl (by decide) a.isLt (by decide) (by decide) (by decide)

theorem OpcodeField.rdU32 (a : XReg) : OpcodeField.Statement (.rdU32 a) :=
  fun _ => opcodeField_of rfl rfl (by decide) a.isLt (by decide) (by decide) (by decide)

theorem OpcodeField.rdI32 (a : XReg) : OpcodeField.Statement (.rdI32 a) :=
  fun _ => opcodeField_of rfl rfl (by decide) a.isLt (by decide) (by decide) (by decide)

theorem OpcodeField.rdU64 (a : XReg) : OpcodeField.Statement (.rdU64 a) :=
  fun _ => opcodeField_of rfl rfl (by decide) a.isLt (by decide) (by decide) (by decide)

theorem OpcodeField.rdV (a : VReg) (imm : Nat) : OpcodeField.Statement (.rdV a imm) :=
  fun h => opcodeField_of rfl rfl (by decide) (vreg_lt a) (by decide) (by decide) (immOk_lt h)

theorem OpcodeField.rdPad : OpcodeField.Statement .rdPad :=
  fun _ => opcodeField_of rfl rfl (by decide) (by decide) (by decide) (by decide) (by decide)

theorem OpcodeField.rdPos (a : XReg) : OpcodeField.Statement (.rdPos a) :=
  fun _ => opcodeField_of rfl rfl (by decide) a.isLt (by decide) (by decide) (by decide)

theorem OpcodeField.rdLen (a : XReg) : OpcodeField.Statement (.rdLen a) :=
  fun _ => opcodeField_of rfl rfl (by decide) a.isLt (by decide) (by decide) (by decide)

theorem OpcodeField.seqCmp (a : XReg) (b : XReg) (c : XReg) : OpcodeField.Statement (.seqCmp a b c) :=
  fun _ => opcodeField_of rfl rfl (by decide) a.isLt b.isLt c.isLt (by decide)

theorem OpcodeField.seqDif (a : XReg) (b : XReg) (c : XReg) : OpcodeField.Statement (.seqDif a b c) :=
  fun _ => opcodeField_of rfl rfl (by decide) a.isLt b.isLt c.isLt (by decide)

theorem OpcodeField.seqAdd (a : XReg) (b : XReg) (c : XReg) : OpcodeField.Statement (.seqAdd a b c) :=
  fun _ => opcodeField_of rfl rfl (by decide) a.isLt b.isLt c.isLt (by decide)

theorem OpcodeField.seqSub (a : XReg) (b : XReg) (c : XReg) : OpcodeField.Statement (.seqSub a b c) :=
  fun _ => opcodeField_of rfl rfl (by decide) a.isLt b.isLt c.isLt (by decide)

theorem OpcodeField.ackInit (a : XReg) (imm : Nat) : OpcodeField.Statement (.ackInit a imm) :=
  fun h => opcodeField_of rfl rfl (by decide) a.isLt (by decide) (by decide) (immOk_lt h)

theorem OpcodeField.ackRx (a : XReg) : OpcodeField.Statement (.ackRx a) :=
  fun _ => opcodeField_of rfl rfl (by decide) a.isLt (by decide) (by decide) (by decide)

theorem OpcodeField.ackHwm (a : XReg) : OpcodeField.Statement (.ackHwm a) :=
  fun _ => opcodeField_of rfl rfl (by decide) a.isLt (by decide) (by decide) (by decide)

theorem OpcodeField.ackWin (a : VReg) : OpcodeField.Statement (.ackWin a) :=
  fun _ => opcodeField_of rfl rfl (by decide) (vreg_lt a) (by decide) (by decide) (by decide)

theorem OpcodeField.ackIsrx (a : XReg) (b : XReg) : OpcodeField.Statement (.ackIsrx a b) :=
  fun _ => opcodeField_of rfl rfl (by decide) a.isLt b.isLt (by decide) (by decide)

end Sys2Proof.Laws
end

