-- ==== Sys2Proof/Machine/Assembly.lean ====
section
/-! DEFINITION. The assembly notation of rule R77 and the aliases of rule R78 (spec/30_encoding.md): how a command is
written down. Nothing the machine does depends on it. -/

namespace Sys2Proof.Machine

open Sys2Proof

/-- The eight aliases of rule R78: second spellings of commands' words, which a decoder never sees. -/
inductive AliasSpelling where
  | wrI16 (a : XReg)
  | wrI32 (a : XReg)
  | wrI64 (a : XReg)
  | wrF32 (a : XReg)
  | wrF64 (a : XReg)
  | rdI64 (a : XReg)
  | rdF32 (a : XReg)
  | rdF64 (a : XReg)
deriving DecidableEq, Repr

/-- The command an alias assembles as (rule R78). -/
def AliasSpelling.expand : AliasSpelling → Instr
  | .wrI16 a => .wrU16 a
  | .wrI32 a => .wrU32 a
  | .wrI64 a => .wrU64 a
  | .wrF32 a => .wrU32 a
  | .wrF64 a => .wrU64 a
  | .rdI64 a => .rdU64 a
  | .rdF32 a => .rdU32 a
  | .rdF64 a => .rdU64 a

/-- An operand of the notation: general registers `X0..X7`, vector registers `V0..V3`, an immediate `#n`
(rule R77). -/
def asmX (r : XReg) : String := "X" ++ toString r.val
def asmV (r : VReg) : String := "V" ++ toString r.val
def asmImm (n : Nat) : String := "#" ++ toString n

/-- The operands of a command in field order, the immediate last (rule R77). `MOVI` takes the `DIN` of its transaction
as `=value`. -/
def asmOperands (i : Instr) (din : Word) : List String :=
  match i with
  | .nop | .clrf | .srst | .wrPad | .rdInit | .rdLdw | .rdPad => []
  | .movi a => [asmX a, "=" ++ toString din.toNat]
  | .movo a | .getf a | .wrInit a | .wrBit a | .wrU8 a | .wrU16 a | .wrU32 a | .wrU64 a | .wrPos a | .wrLen a
  | .rdPutb a | .rdBit a | .rdU8 a | .rdU16 a | .rdI16 a | .rdU32 a | .rdI32 a | .rdU64 a | .rdPos a | .rdLen a
  | .ackRx a | .ackHwm a => [asmX a]
  | .bvClra a | .wrV a | .ackWin a => [asmV a]
  | .li a imm | .ackInit a imm => [asmX a, asmImm imm]
  | .bvNew a imm | .bvSeti a imm | .bvClri a imm | .bvShli a imm | .rdV a imm => [asmV a, asmImm imm]
  | .bvTsti a b imm => [asmX a, asmV b, asmImm imm]
  | .bvSet a b | .bvClr a b | .bvShl a b => [asmV a, asmX b]
  | .bvLen a b => [asmX a, asmV b]
  | .wrGetb a b | .ackIsrx a b => [asmX a, asmX b]
  | .bvTst a b c => [asmX a, asmV b, asmX c]
  | .seqCmp a b c | .seqDif a b c | .seqAdd a b c | .seqSub a b c => [asmX a, asmX b, asmX c]

/-- One line of the notation: the mnemonic, a space, the operands separated by commas (rule R77). -/
def asmLine (i : Instr) (din : Word) : String :=
  match asmOperands i din with
  | [] => i.mnemonic
  | ops => i.mnemonic ++ " " ++ ", ".intercalate ops

/-- What a disassembler prints for a transaction: the right-hand column of rule R78, never an alias; nothing for a word
that spells no command. -/
def disassemble (t : Transaction) : Option String :=
  match decode t.cw with
  | .ok i => some (asmLine i t.din)
  | .error _ => none

end Sys2Proof.Machine
end

