-- ==== Sys2Proof/Tests/Slice0.lean ====
section
/-! SUPPORT. The model's own tests: well-formedness, words written out from the encodings of spec/30_encoding.md, one
step of each command with results taken from spec/95_test_vectors.md (or worked out by hand from the rule the test
names), and, for each statement of Obligations.lean that has hypotheses, states and operands that meet them. -/

namespace Sys2Proof.Tests

open Sys2Proof Sys2Proof.Machine

/-! ## Well-formedness: an ill-formed term for each check, refused -/

theorem test_wf_refuses_li : (Instr.li 1 4096).wf = false ∧ (Instr.li 1 4095).wf = true := by decide
theorem test_wf_refuses_bvNew : (Instr.bvNew 1 4096).wf = false ∧ (Instr.bvNew 1 4095).wf = true := by decide
theorem test_wf_refuses_bvSeti : (Instr.bvSeti 1 4096).wf = false ∧ (Instr.bvSeti 1 4095).wf = true := by decide
theorem test_wf_refuses_bvClri : (Instr.bvClri 1 4096).wf = false ∧ (Instr.bvClri 1 4095).wf = true := by decide
theorem test_wf_refuses_bvTsti : (Instr.bvTsti 1 2 4096).wf = false ∧ (Instr.bvTsti 1 2 4095).wf = true := by decide
theorem test_wf_refuses_bvShli : (Instr.bvShli 1 4096).wf = false ∧ (Instr.bvShli 1 4095).wf = true := by decide
theorem test_wf_refuses_rdV : (Instr.rdV 1 4096).wf = false ∧ (Instr.rdV 1 4095).wf = true := by decide
theorem test_wf_refuses_ackInit : (Instr.ackInit 1 4096).wf = false ∧ (Instr.ackInit 1 4095).wf = true := by decide

/-! ## Decoding: one word of each row, its opcode in bits 31:24 and its operands in the fields of rule R71, written out
from the row of rule R74 -/

theorem test_decode_nop : decode 0x00000000#32 = .ok .nop := by decide
theorem test_decode_li : decode 0x01500ABC#32 = .ok (.li 5 0xABC) := by decide
theorem test_decode_movi : decode 0x02500000#32 = .ok (.movi 5) := by decide
theorem test_decode_movo : decode 0x03500000#32 = .ok (.movo 5) := by decide
theorem test_decode_getf : decode 0x04500000#32 = .ok (.getf 5) := by decide
theorem test_decode_clrf : decode 0x05000000#32 = .ok .clrf := by decide
theorem test_decode_srst : decode 0x06000000#32 = .ok .srst := by decide
theorem test_decode_bvNew : decode 0x10200ABC#32 = .ok (.bvNew 2 0xABC) := by decide
theorem test_decode_bvSeti : decode 0x11200ABC#32 = .ok (.bvSeti 2 0xABC) := by decide
theorem test_decode_bvClri : decode 0x12200ABC#32 = .ok (.bvClri 2 0xABC) := by decide
theorem test_decode_bvTsti : decode 0x13510ABC#32 = .ok (.bvTsti 5 1 0xABC) := by decide
theorem test_decode_bvSet : decode 0x14230000#32 = .ok (.bvSet 2 3) := by decide
theorem test_decode_bvClr : decode 0x15230000#32 = .ok (.bvClr 2 3) := by decide
theorem test_decode_bvTst : decode 0x16516000#32 = .ok (.bvTst 5 1 6) := by decide
theorem test_decode_bvShli : decode 0x17200ABC#32 = .ok (.bvShli 2 0xABC) := by decide
theorem test_decode_bvShl : decode 0x18230000#32 = .ok (.bvShl 2 3) := by decide
theorem test_decode_bvClra : decode 0x19200000#32 = .ok (.bvClra 2) := by decide
theorem test_decode_bvLen : decode 0x1A510000#32 = .ok (.bvLen 5 1) := by decide
theorem test_decode_wrInit : decode 0x20500000#32 = .ok (.wrInit 5) := by decide
theorem test_decode_wrBit : decode 0x21500000#32 = .ok (.wrBit 5) := by decide
theorem test_decode_wrU8 : decode 0x22500000#32 = .ok (.wrU8 5) := by decide
theorem test_decode_wrU16 : decode 0x23500000#32 = .ok (.wrU16 5) := by decide
theorem test_decode_wrU32 : decode 0x24500000#32 = .ok (.wrU32 5) := by decide
theorem test_decode_wrU64 : decode 0x25500000#32 = .ok (.wrU64 5) := by decide
theorem test_decode_wrV : decode 0x26200000#32 = .ok (.wrV 2) := by decide
theorem test_decode_wrPad : decode 0x27000000#32 = .ok .wrPad := by decide
theorem test_decode_wrPos : decode 0x28500000#32 = .ok (.wrPos 5) := by decide
theorem test_decode_wrLen : decode 0x29500000#32 = .ok (.wrLen 5) := by decide
theorem test_decode_wrGetb : decode 0x2A530000#32 = .ok (.wrGetb 5 3) := by decide
theorem test_decode_rdInit : decode 0x30000000#32 = .ok .rdInit := by decide
theorem test_decode_rdPutb : decode 0x31500000#32 = .ok (.rdPutb 5) := by decide
theorem test_decode_rdLdw : decode 0x32000000#32 = .ok .rdLdw := by decide
theorem test_decode_rdBit : decode 0x33500000#32 = .ok (.rdBit 5) := by decide
theorem test_decode_rdU8 : decode 0x34500000#32 = .ok (.rdU8 5) := by decide
theorem test_decode_rdU16 : decode 0x35500000#32 = .ok (.rdU16 5) := by decide
theorem test_decode_rdI16 : decode 0x36500000#32 = .ok (.rdI16 5) := by decide
theorem test_decode_rdU32 : decode 0x37500000#32 = .ok (.rdU32 5) := by decide
theorem test_decode_rdI32 : decode 0x38500000#32 = .ok (.rdI32 5) := by decide
theorem test_decode_rdU64 : decode 0x39500000#32 = .ok (.rdU64 5) := by decide
theorem test_decode_rdV : decode 0x3A200ABC#32 = .ok (.rdV 2 0xABC) := by decide
theorem test_decode_rdPad : decode 0x3B000000#32 = .ok .rdPad := by decide
theorem test_decode_rdPos : decode 0x3C500000#32 = .ok (.rdPos 5) := by decide
theorem test_decode_rdLen : decode 0x3D500000#32 = .ok (.rdLen 5) := by decide
theorem test_decode_seqCmp : decode 0x40536000#32 = .ok (.seqCmp 5 3 6) := by decide
theorem test_decode_seqDif : decode 0x41536000#32 = .ok (.seqDif 5 3 6) := by decide
theorem test_decode_seqAdd : decode 0x42536000#32 = .ok (.seqAdd 5 3 6) := by decide
theorem test_decode_seqSub : decode 0x43536000#32 = .ok (.seqSub 5 3 6) := by decide
theorem test_decode_ackInit : decode 0x50500ABC#32 = .ok (.ackInit 5 0xABC) := by decide
theorem test_decode_ackRx : decode 0x51500000#32 = .ok (.ackRx 5) := by decide
theorem test_decode_ackHwm : decode 0x52500000#32 = .ok (.ackHwm 5) := by decide
theorem test_decode_ackWin : decode 0x53200000#32 = .ok (.ackWin 2) := by decide
theorem test_decode_ackIsrx : decode 0x54530000#32 = .ok (.ackIsrx 5 3) := by decide

/-- Fields at their largest values. -/
theorem test_decode_largest_fields :
    decode 0x01700FFF#32 = .ok (.li 7 4095) ∧ decode 0x54770000#32 = .ok (.ackIsrx 7 7) ∧
    decode 0x10300004#32 = .ok (.bvNew 3 4) ∧ decode 0x13230001#32 = .ok (.bvTsti 2 3 1) := by decide

/-! ### Illegal words, refused by name: the list of spec/95_test_vectors.md section 9 -/

theorem test_illegal_opcode :
    decode 0x07000000#32 = .error .noSuchOpcode ∧
    decode 0x0F000000#32 = .error .noSuchOpcode ∧
    decode 0x1B000000#32 = .error .noSuchOpcode ∧
    decode 0x2B000000#32 = .error .noSuchOpcode ∧
    decode 0x3E000000#32 = .error .noSuchOpcode ∧
    decode 0x44000000#32 = .error .noSuchOpcode ∧
    decode 0x55000000#32 = .error .noSuchOpcode ∧
    decode 0x60000000#32 = .error .noSuchOpcode ∧
    decode 0xFFFFFFFF#32 = .error .noSuchOpcode := by decide

theorem test_illegal_reserved_bit :
    decode 0x01900005#32 = .error .reservedBit ∧
    decode 0x01180005#32 = .error .reservedBit ∧
    decode 0x01108005#32 = .error .reservedBit := by decide

theorem test_illegal_unused_field :
    decode 0x00000001#32 = .error .unusedField ∧
    decode 0x00100000#32 = .error .unusedField ∧
    decode 0x01110005#32 = .error .unusedField ∧
    decode 0x02200001#32 = .error .unusedField ∧
    decode 0x40012001#32 = .error .unusedField ∧
    decode 0x54011000#32 = .error .unusedField ∧
    decode 0x06000001#32 = .error .unusedField := by decide

theorem test_illegal_vector_field :
    decode 0x10400004#32 = .error .vectorField ∧
    decode 0x13240001#32 = .error .vectorField ∧
    decode 0x26400000#32 = .error .vectorField := by decide

/-! ### The opcode table, the encoder, the aliases, the notation -/

theorem test_table_has_52_rows : opcodeTable.length = 52 := by decide

/-- No two rows share a match value, and every match value obeys its own mask. -/
theorem test_table_rows_differ :
    (opcodeTable.map Row.pattern).Nodup ∧ ∀ row ∈ opcodeTable, row.pattern &&& row.mask = row.pattern := by decide

theorem test_encode_examples :
    encode (.li 1 5) = 0x01100005#32 ∧ encode (.bvTsti 2 1 3) = 0x13210003#32 ∧
    encode (.seqCmp 0 1 2) = 0x40012000#32 ∧ encode .wrPad = 0x27000000#32 := by decide

/-- `WR.I16 X2`, `WR.F32 X3`: the words of spec/95_test_vectors.md section 5. -/
theorem test_alias_words :
    encode (AliasSpelling.wrI16 2).expand = 0x23200000#32 ∧ encode (AliasSpelling.wrF32 3).expand = 0x24300000#32 := by
  decide

theorem test_table_word :
    decodeTableWord 32 0x01100005 = some (.li 1 5) ∧ decodeTableWord 32 0x01900005 = none := by decide

/-! ## Helpers -/

/-- The state after a command; the state before it where it stops. -/
def after (i : Instr) (s : State) : State :=
  match exec i s with
  | .next t => t
  | .fault _ => s
  | .refused _ => s

def ran (i : Instr) (s : State) : Bool :=
  match exec i s with
  | .next _ => true
  | .fault _ => false
  | .refused _ => false

theorem next_of_ran {i : Instr} {s : State} (h : ran i s = true) : exec i s = .next (after i s) := by
  unfold ran at h
  unfold after
  split at h
  · rename_i heq; rw [heq]
  · cases h
  · cases h

/-- The state after a list of commands. -/
def afterAll : List Instr → State → State
  | [], s => s
  | i :: is, s => afterAll is (after i s)

def ranAll : List Instr → State → Bool
  | [], _ => true
  | i :: is, s => ran i s && ranAll is (after i s)

theorem performs_of_ranAll {is : List Instr} : ∀ {s : State}, ranAll is s = true → Performs is s (afterAll is s) := by
  induction is with
  | nil => intro s _; exact rfl
  | cons i is ih =>
    intro s h
    have h2 := Bool.and_eq_true_iff.1 h
    exact ⟨after i s, next_of_ran h2.1, ih h2.2⟩

/-- The status of the last response. -/
def lastSt (s : State) : Option Status := s.responses.getLast?.map Response.st

/-- Rule R28 as a check of finitely many positions. -/
def invCheck (s : State) : Bool :=
  s.wcap ≤ s.cfg.bufmax && s.wbuf.all (fun c => c.1 < s.wcap) && s.wpos ≤ 8 * s.wcap &&
    (List.range (8 * s.wcap)).all (fun p => p < s.wpos || !Memory.bit s.wbuf p) &&
    s.rlen ≤ s.cfg.bufmax && s.rbuf.all (fun c => c.1 < s.rlen) && s.rpos ≤ 8 * s.rlen &&
    (List.finRange 4).all (fun r => s.getVN r ≤ s.cfg.vmax) && s.aw ≤ s.cfg.vmax

theorem inv_of_check {s : State} (h : invCheck s = true) : s.Inv := by
  simp only [invCheck, Bool.and_eq_true, decide_eq_true_eq, List.all_eq_true, List.mem_range, Bool.or_eq_true,
    Bool.not_eq_true'] at h
  obtain ⟨⟨⟨⟨⟨⟨⟨⟨h1, h2⟩, h3⟩, h4⟩, h5⟩, h6⟩, h7⟩, h8⟩, h9⟩ := h
  refine ⟨h1, h2, h3, fun p hp => ?_, h5, h6, h7, fun r => h8 r (List.mem_finRange r), h9⟩
  by_cases hlt : p < 8 * s.wcap
  · rcases h4 p hlt with h | h
    · omega
    · exact h
  · have hz : Memory.read s.wbuf (p / 8) = 0 := Memory.read_of_not_listed fun c hc e => by
      have := h2 c hc
      omega
    rw [Memory.bit, hz]
    simp

/-- A state with something in every piece of state. -/
def sA : State :=
  { State.reset with
    x := #v[0, 5, 0xFFFFFFFFFFFF8000, 3, 4, 0xDEADBEEF81234567, 0x800, 0x801]
    v := #v[[], [false, true, true, false], [true, false, true, false, false, false, false, true], [true, true, true]]
    wcap := 10
    wpos := 3
    wbuf := [(0, 5)]
    rlen := 9
    rpos := 3
    rbuf := [(0, 0x38), (1, 0x1B), (2, 0x67), (3, 0x81), (8, 0xFF)]
    ahwm := 18
    awin := [false, true, false, true]
    fsr := 2
    din := 0x0123456789ABCDEF }

theorem test_sA_inv : sA.Inv := inv_of_check (by decide)

theorem test_reset_memory_wf : Memory.wf State.reset.wbuf = true ∧ Memory.wf State.reset.rbuf = true := by decide

/-! ## One step of each command -/

/-! ### SYS (spec/95_test_vectors.md section 3) -/

theorem test_nop : after .nop sA = { sA with responses := [⟨.ok, 0⟩] } := by decide
theorem test_li : (after (.li 7 4095) sA).getX 7 = 0xFFF#64 := by decide
theorem test_movi : (after (.movi 2) sA).getX 2 = 0x0123456789ABCDEF#64 := by decide
theorem test_movo : (after (.movo 2) sA).responses = [⟨.ok, 0xFFFFFFFFFFFF8000#64⟩] := by decide
theorem test_getf : (after (.getf 3) sA).getX 3 = 2#64 ∧ (after (.getf 3) sA).fsr = 2#4 := by decide
theorem test_clrf : (after .clrf sA).fsr = 0#4 ∧ (after .clrf sA).x = sA.x := by decide
theorem test_srst : after .srst sA = { State.reset with din := sA.din, responses := [⟨.ok, 0⟩] } := by decide

/-! ### BV (section 4) -/

theorem test_bvNew : (after (.bvNew 1 4) sA).getV 1 = [false, false, false, false] := by decide
theorem test_bvNew_above_vmax : lastSt (after (.bvNew 1 257) sA) = some (.fault .operandError) ∧
    (after (.bvNew 1 257) sA).fsr = 10#4 := by decide
theorem test_bvSeti : (after (.bvSeti 1 3) sA).getV 1 = [false, true, true, true] := by decide
theorem test_bvSeti_out : lastSt (after (.bvSeti 1 4) sA) = some (.fault .operandError) := by decide
theorem test_bvClri : (after (.bvClri 1 2) sA).getV 1 = [false, true, false, false] := by decide
theorem test_bvTsti : (after (.bvTsti 2 1 1) sA).getX 2 = 1#64 ∧ (after (.bvTsti 2 1 0) sA).getX 2 = 0#64 := by decide
theorem test_bvSet : (after (.bvSet 1 3) sA).getV 1 = [false, true, true, true] := by decide
theorem test_bvSet_whole_register : lastSt (after (.bvSet 1 2) sA) = some (.fault .operandError) := by decide
theorem test_bvClr : (after (.bvClr 3 0) sA).getV 3 = [false, true, true] := by decide
/-- `BV.TST X3, V1, X3`: the index register is the destination (rule R80). -/
theorem test_bvTst : (after (.bvTst 3 1 3) sA).getX 3 = 0#64 ∧ (after (.bvTst 0 2 0) sA).getX 0 = 1#64 := by decide
theorem test_bvShli :
    (after (.bvShli 2 1) sA).getV 2 = [false, true, false, true, false, false, false, false] ∧
    (after (.bvShli 2 7) sA).getV 2 = [false, false, false, false, false, false, false, true] ∧
    (after (.bvShli 2 8) sA).getV 2 = zeros 8 := by decide
theorem test_bvShl :
    (after (.bvShl 2 3) sA).getV 2 = [false, false, false, true, false, true, false, false] ∧
    (after (.bvShl 2 2) sA).getV 2 = zeros 8 := by decide
theorem test_bvClra : (after (.bvClra 3) sA).getV 3 = [false, false, false] := by decide
theorem test_bvLen : (after (.bvLen 4 2) sA).getX 4 = 8#64 := by decide

/-! ### WR (section 5; `sA` has the bits 1, 0, 1 written, so the values stand shifted up by three) -/

theorem test_wrInit : (after (.wrInit 6) sA).wcap = 2048 ∧ (after (.wrInit 6) sA).wpos = 0 ∧
    (after (.wrInit 6) sA).wbuf = [] := by decide
theorem test_wrInit_above_bufmax : lastSt (after (.wrInit 7) sA) = some (.fault .operandError) ∧
    (after (.wrInit 7) sA).wcap = 10 := by decide
theorem test_wrBit : (after (.wrBit 1) sA).getBytes = [0x0D] ∧ (after (.wrBit 1) sA).wpos = 4 := by decide
/-- `A5` at position 1 after a 1 bit gives `4B 01`. -/
theorem test_wrU8 :
    (after (.wrU8 0) ({ sA with wpos := 1, wbuf := [(0, 1)] }.setX 0 0xA5)).getBytes = [0x4B, 0x01] := by decide
/-- `0x1234` after `4B 01` at position 9 gives `4B 69 24 00`. -/
theorem test_wrU16 :
    (after (.wrU16 0) ({ sA with wpos := 9, wbuf := [(0, 0x4B), (1, 1)] }.setX 0 0x1234)).getBytes =
      [0x4B, 0x69, 0x24, 0x00] := by decide
set_option maxRecDepth 20000 in
theorem test_wrU32 :
    (after (.wrU32 0) ({ sA with wpos := 25, wbuf := [(0, 0x4B), (1, 0x69), (2, 0x24)] }.setX 0 0xDEADBEEF)).getBytes =
      [0x4B, 0x69, 0x24, 0xDE, 0x7D, 0x5B, 0xBD, 0x01] := by decide
set_option maxRecDepth 20000 in
theorem test_wrU64 :
    (after (.wrU64 0) ({ sA with wpos := 0, wbuf := [] }.setX 0 0x0102030405060708)).getBytes =
      [8, 7, 6, 5, 4, 3, 2, 1] := by decide
theorem test_wrU64_full : lastSt (after (.wrU64 5) { sA with wcap := 8 }) = some (.fault .capacityError) ∧
    (after (.wrU64 5) { sA with wcap := 8 }).fsr = 3#4 := by decide
/-- The run `101100111000` from position 0 gives `38 0B`. -/
theorem test_wrV :
    (after (.wrV 0) ({ sA with wpos := 0, wbuf := [] }.setV 0
      [false, false, false, true, true, true, false, false, true, true, false, true])).getBytes = [0x38, 0x0B] := by
  decide
theorem test_wrPad : (after .wrPad sA).wpos = 8 ∧ (after .wrPad (after .wrPad sA)).wpos = 8 := by decide
theorem test_wrPos : (after (.wrPos 6) sA).getX 6 = 3#64 := by decide
theorem test_wrLen : (after (.wrLen 7) { sA with wpos := 17 }).getX 7 = 3#64 := by decide
theorem test_wrGetb :
    (after (.wrGetb 0 0) { sA with wcap := 4, wpos := 17, wbuf := [(0, 0x34), (1, 0x12), (2, 1)] }).getX 0 = 0x34#64 := by
  decide
theorem test_wrGetb_beyond_output :
    lastSt (after (.wrGetb 0 3) { sA with wcap := 4, wpos := 17, wbuf := [(0, 0x34), (1, 0x12), (2, 1)] }) =
      some (.fault .operandError) := by decide

/-! ### RD (section 6) -/

theorem test_rdInit : (after .rdInit sA).rlen = 0 ∧ (after .rdInit sA).rpos = 0 ∧ (after .rdInit sA).rbuf = [] := by
  decide
/-- The low byte of the register, at the end of the input. -/
theorem test_rdPutb : Memory.read (after (.rdPutb 5) sA).rbuf 9 = 0x67 ∧ (after (.rdPutb 5) sA).rlen = 10 ∧
    (after (.rdPutb 5) sA).rpos = 3 := by decide
theorem test_rdPutb_full : lastSt (after (.rdPutb 5) { sA with rlen := 2048 }) = some (.fault .operandError) := by decide
theorem test_rdLdw : (after .rdLdw sA).rlen = 1 ∧ (after .rdLdw sA).rbuf = [(0, 5)] ∧ (after .rdLdw sA).rpos = 0 := by
  decide
/-- Bit 3 of `38` is 1. -/
theorem test_rdBit : (after (.rdBit 0) sA).getX 0 = 1#64 ∧ (after (.rdBit 0) sA).rpos = 4 := by decide
/-- The packet's bytes `4B 69 24 DE` read from position 1. -/
theorem test_rdU8 : (after (.rdU8 1) { sA with rpos := 1, rbuf := [(0, 0x4B), (1, 0x69), (2, 0x24)] }).getX 1 = 0xA5#64 := by
  decide
theorem test_rdU16 : (after (.rdU16 2) { sA with rpos := 9, rbuf := [(0, 0x4B), (1, 0x69), (2, 0x24)] }).getX 2 = 0x1234#64 := by
  decide
theorem test_rdI16 : (after (.rdI16 1) { sA with rpos := 0, rbuf := [(0, 0xFE), (1, 0xFF)] }).getX 1 =
    0xFFFFFFFFFFFFFFFE#64 := by decide
theorem test_rdU32 : (after (.rdU32 2) { sA with rpos := 0, rbuf := [(0, 0xEF), (1, 0xBE), (2, 0xAD), (3, 0xDE)] }).getX 2 =
    0xDEADBEEF#64 := by decide
theorem test_rdI32 :
    (after (.rdI32 3) { sA with rpos := 0, rbuf := [(0, 0xEF), (1, 0xBE), (2, 0xAD), (3, 0xDE)] }).getX 3 =
      0xFFFFFFFFDEADBEEF#64 ∧
    (after (.rdI32 4) { sA with rpos := 0, rbuf := [(0, 0xFF), (1, 0xFF), (2, 0xFF), (3, 0x7F)] }).getX 4 =
      0x7FFFFFFF#64 := by decide
set_option maxRecDepth 20000 in
theorem test_rdU64 : (after (.rdU64 4)
    { sA with rpos := 0, rbuf := [(0, 8), (1, 7), (2, 6), (3, 5), (4, 4), (5, 3), (6, 2), (7, 1)] }).getX 4 =
      0x0102030405060708#64 := by decide
theorem test_rdU64_short : lastSt (after (.rdU64 4) { sA with rlen := 8 }) = some (.fault .formatError) := by decide
/-- 12 bits of `38 1B` give the run `101100111000`. -/
theorem test_rdV : (after (.rdV 0 12) { sA with rpos := 0 }).getV 0 =
    [false, false, false, true, true, true, false, false, true, true, false, true] := by decide
/-- On an empty input 257 bits are OperandError, 256 FormatError (rule R202). -/
theorem test_rdV_priority :
    lastSt (after (.rdV 0 257) { sA with rlen := 0, rpos := 0 }) = some (.fault .operandError) ∧
    lastSt (after (.rdV 0 256) { sA with rlen := 0, rpos := 0 }) = some (.fault .formatError) := by decide
theorem test_rdPad : (after .rdPad { sA with rpos := 25 }).rpos = 32 ∧ (after .rdPad { sA with rpos := 32 }).rpos = 32 := by
  decide
theorem test_rdPos : (after (.rdPos 5) { sA with rpos := 25 }).getX 5 = 25#64 := by decide
theorem test_rdLen : (after (.rdLen 7) sA).getX 7 = 9#64 := by decide

/-! ### SEQ (section 7) -/

theorem test_seqCmp :
    (after (.seqCmp 0 1 2) ((sA.setX 1 0).setX 2 65535)).getX 0 = 1#64 ∧
    (after (.seqCmp 0 1 2) ((sA.setX 1 49152).setX 2 16384)).getX 0 = 0xFFFFFFFFFFFFFFFF#64 := by decide
theorem test_seqDif :
    (after (.seqDif 0 1 2) ((sA.setX 1 40000).setX 2 0)).getX 0 = 0xFFFFFFFFFFFF9C40#64 ∧
    (after (.seqDif 0 1 2) ((sA.setX 1 0xFFFFFFFFFFFF0005).setX 2 0x10003)).getX 0 = 2#64 := by decide
theorem test_seqAdd : (after (.seqAdd 0 1 2) ((sA.setX 1 65535).setX 2 65535)).getX 0 = 65534#64 := by decide
theorem test_seqSub : (after (.seqSub 0 1 2) ((sA.setX 1 0).setX 2 40000)).getX 0 = 25536#64 := by decide

/-! ### ACK (sections 1 and 8) -/

theorem test_ackInit : (after (.ackInit 0 2) (sA.setX 0 0xABCD0009)).ahwm = 9#16 ∧
    (after (.ackInit 0 2) (sA.setX 0 0xABCD0009)).awin = [false, false] := by decide
theorem test_ackInit_above_vmax : lastSt (after (.ackInit 0 257) sA) = some (.fault .operandError) ∧
    (after (.ackInit 0 257) sA).ahwm = 18#16 := by decide

/-- The mark and the window after `ACK.RX` of one number. -/
def rx (mark : SeqNo) (win : Bits) (q : Nat) : SeqNo × Bits :=
  let s := after (.ackRx 1) { sA.setX 1 (BitVec.ofNat 64 q) with ahwm := mark, awin := win }
  (s.ahwm, s.awin)

/-- The golden trace, steps 2, 4, 5, 8 and 9: advances within the window, a duplicate of the mark, an advance by the width
and by more than it. -/
theorem test_ackRx :
    rx 2 [false, true, false, false] 3 = (3, [true, false, true, false]) ∧
    rx 5 [false, true, true, false] 6 = (6, [true, false, true, true]) ∧
    rx 6 [true, false, true, true] 6 = (6, [true, false, true, true]) ∧
    rx 9 [false, false, true, true] 13 = (13, [false, false, false, true]) ∧
    rx 13 [false, false, false, true] 18 = (18, [false, false, false, false]) := by decide

/-- The golden trace, steps 10 to 12, and the antipode of the mark (section 8): late arrivals, and numbers too old. -/
theorem test_ackRx_late :
    rx 18 [false, false, false, false] 16 = (18, [false, true, false, false]) ∧
    rx 18 [false, true, false, false] 14 = (18, [false, true, false, true]) ∧
    rx 18 [false, true, false, true] 10 = (18, [false, true, false, true]) ∧
    rx 32879 [false, false, false, false] 111 = (32879, [false, false, false, false]) := by decide
theorem test_ackHwm : (after (.ackHwm 4) sA).getX 4 = 18#64 := by decide
theorem test_ackWin : (after (.ackWin 0) sA).getV 0 = [false, true, false, true] := by decide
/-- The table of section 8 for the mark 18 and the window `1010`. -/
theorem test_ackIsrx :
    [12, 13, 14, 15, 16, 17, 18, 19, 20, 32786, 32785].map
      (fun q => ((after (.ackIsrx 0 1) (sA.setX 1 (BitVec.ofNat 64 q))).getX 0).toNat) =
      [0, 0, 1, 0, 1, 0, 1, 0, 0, 0, 0] := by decide

/-! ### The step -/

/-- The step takes the transaction, runs its word and leaves the next one. -/
theorem test_step_runs :
    (match step { sA with pending := [⟨0x02200000#32, 7⟩, ⟨0x00000001#32, 0⟩] } with
      | .next s => some (s.getX 2, s.pending, s.responses)
      | _ => none) = some (7#64, [⟨0x00000001#32, 0⟩], [⟨.ok, 0⟩]) := by decide

theorem test_step_illegal :
    (match step { sA with pending := [⟨0x00000001#32, 0⟩] } with
      | .next s => some (s.fsr, s.responses, decide (s.x = sA.x))
      | _ => none) = some (6#4, [⟨.fault .illegalCommand, 0⟩], true) := by decide

/-- The word placed where the step takes its next command is the one that runs. -/
theorem test_withFetchWord :
    (match step (State.reset.withFetchWord 32 0x01700FFF) with
      | .next s => some ((s.getX 7).toNat)
      | _ => none) = some 4095 := by decide

/-! ## Witnesses: states and operands that meet the hypotheses of each statement, at the ends of its ranges -/

theorem witness_DecodeInvertsEncode :
    ∀ i ∈ [Instr.li 7 4095, .li 0 0, .bvNew 3 4095, .bvSeti 3 0, .bvClri 0 4095, .bvTsti 7 3 4095, .bvShli 3 4095,
      .rdV 3 4095, .ackInit 7 4095, .nop, .wrPad, .seqSub 7 7 7, .ackIsrx 7 7], i.wf = true := by decide

theorem witness_EncodeInvertsDecode : decode 0x53300000#32 = .ok (.ackWin 3) := by decide

/-- A row with a word that matches it, and a word that matches none. -/
theorem witness_WordSpellsCommandIffRowMatches :
    (⟨"BV.TST", 0x16000000#32, 0xFF8C8FFF#32⟩ ∈ opcodeTable ∧ 0x16737000#32 &&& 0xFF8C8FFF#32 = 0x16000000#32) ∧
    (∀ row ∈ opcodeTable, 0x60000000#32 &&& row.mask ≠ row.pattern) ∧
    (∀ row ∈ opcodeTable, 0x16740000#32 &&& row.mask ≠ row.pattern) := by decide

/-- A word of each of the four kinds, each the next transaction of a state. -/
theorem witness_IllegalWordsAreTheFourKindsAndRaise :
    IllegalByItems 0x07000000#32 ∧ IllegalByItems 0xFFFFFFFF#32 ∧ IllegalByItems 0x01900005#32 ∧
    IllegalByItems 0x01108005#32 ∧ IllegalByItems 0x00000001#32 ∧ IllegalByItems 0x54011000#32 ∧
    IllegalByItems 0x10400004#32 ∧ IllegalByItems 0x13240001#32 ∧
    { sA with pending := [⟨0x07000000#32, 9⟩] }.pending = (⟨0x07000000#32, 9⟩ : Transaction) :: [] :=
  ⟨.inl (by decide), .inl (by decide), .inr (.inl (by decide)), .inr (.inl (by decide)),
    .inr (.inr (.inl (by decide))), .inr (.inr (.inl (by decide))), .inr (.inr (.inr (by decide))),
    .inr (.inr (.inr (by decide))), rfl⟩

theorem witness_StepRunsTheDecodedCommand :
    { sA with pending := [⟨0x01100005#32, 9⟩, ⟨0, 0⟩] }.pending = (⟨0x01100005#32, 9⟩ : Transaction) :: [⟨0, 0⟩] ∧
    decode 0x01100005#32 = .ok (.li 1 5) := by decide

theorem witness_IdleStepHoldsTheState : sA.pending = [] := by decide

/-- A state of rule R28 with a legal transaction pending, and one with an illegal one. -/
theorem witness_EveryTransactionIsAnswered :
    { sA with pending := [⟨0x32000000#32, 9⟩] }.Inv ∧ { sA with pending := [⟨0x32000001#32, 9⟩] }.Inv :=
  ⟨inv_of_check (by decide), inv_of_check (by decide)⟩

/-- A command that runs, one that faults and an idle step, from states of rule R28. -/
theorem witness_EveryStepKeepsInvariant :
    { sA with pending := [⟨0x27000000#32, 0⟩] }.Inv ∧
    (step { sA with pending := [⟨0x27000000#32, 0⟩] } = .next (after .wrPad { sA with din := 0 })) ∧
    { sA with pending := [⟨0x3A000FFF#32, 0⟩] }.Inv ∧
    (step { sA with pending := [⟨0x3A000FFF#32, 0⟩] } = .next (after (.rdV 0 4095) { sA with din := 0 })) ∧
    step sA = .next sA :=
  ⟨inv_of_check (by decide), rfl, inv_of_check (by decide), rfl, rfl⟩

theorem witness_EveryStepKeepsCanonicalMemory :
    { sA with pending := [⟨0x31500000#32, 0⟩] }.Canonical ∧
    step { sA with pending := [⟨0x31500000#32, 0⟩] } = .next (after (.rdPutb 5) { sA with din := 0 }) :=
  ⟨⟨by decide, by decide⟩, rfl⟩

/-- A command of each family that runs, and one of each family that can fault that faults. -/
theorem witness_FamiliesWriteOnlyTheirState :
    ∀ i ∈ [Instr.getf 1, .bvSeti 1 3, .bvSeti 1 4, .wrU8 5, .wrGetb 0 7, .rdV 0 4, .rdV 0 257, .seqCmp 0 1 2,
      .ackRx 1, .ackInit 1 257], ran i sA = true := by decide

/-- The unit numbers of the commands of the witness before. -/
theorem witness_FamiliesWriteOnlyTheirState_units :
    (Instr.getf 1).unit = 0 ∧ Instr.getf 1 ≠ .srst ∧ (Instr.bvSeti 1 3).unit = 1 ∧ (Instr.wrU8 5).unit = 2 ∧
    (Instr.rdV 0 4).unit = 3 ∧ (Instr.seqCmp 0 1 2).unit = 4 ∧ (Instr.ackRx 1).unit = 5 := by decide

theorem witness_OneResponseAndDoutOnlyFromMovo : exec (.movo 5) sA = .next (after (.movo 5) sA) :=
  next_of_ran (by decide)

theorem witness_MoviAloneLoadsDin : (∀ a, Instr.li 1 5 ≠ .movi a) ∧ exec (.li 1 5) sA = .next (after (.li 1 5) sA) :=
  ⟨by decide, next_of_ran (by decide)⟩

theorem witness_MovoAloneAnswersDout :
    exec (.movo 5) sA = .next (after (.movo 5) sA) ∧
    (after (.movo 5) sA).responses = sA.responses ++ [⟨.ok, 0xDEADBEEF81234567#64⟩] ∧ (0xDEADBEEF81234567 : Word) ≠ 0 :=
  ⟨next_of_ran (by decide), by decide, by decide⟩

theorem witness_FsrInfluencesNoResult :
    (∀ a, Instr.bvSeti 1 4 ≠ .getf a) ∧ exec (.bvSeti 1 4) sA = .next (after (.bvSeti 1 4) sA) :=
  ⟨by decide, next_of_ran (by decide)⟩

/-- The ends of the range of an immediate: for `LI`, and for the encoding clauses of the commands with an immediate. -/
theorem witness_LiLoadsTheImmediate : 0 < 4096 ∧ 4095 < 4096 := by decide

theorem witness_BvNewCreatesAClearVector : 0 ≤ sA.cfg.vmax ∧ 256 ≤ sA.cfg.vmax ∧ sA.cfg.vmax < 257 := by decide

/-- The highest index, the capacity, and index 0 of the empty vector. -/
theorem witness_BvSetiClriReplaceOneBit : 3 < sA.getVN 1 ∧ sA.getVN 1 ≤ 4 ∧ sA.getVN 0 ≤ 0 := by decide

/-- The same with the index in `X3`, `X4` and `X2` (bits 15:0 of which are not the whole of it). -/
theorem witness_BvSetClrReplaceOneBit :
    (sA.getX 3).toNat < sA.getVN 1 ∧ sA.getVN 1 ≤ (sA.getX 4).toNat ∧ sA.getVN 0 ≤ (sA.getX 0).toNat := by decide

theorem witness_BvTestsReadOneBit :
    3 < sA.getVN 1 ∧ sA.getVN 1 ≤ 4 ∧ (sA.getX 3).toNat < sA.getVN 1 ∧ sA.getVN 1 ≤ (sA.getX 4).toNat := by decide

/-- States of rule R28 with parameters of rule R6: for `BV.LEN`, `WR.POS`, `WR.LEN`, `RD.POS`, `RD.LEN`. -/
theorem witness_Inv_and_Valid : sA.Inv ∧ sA.cfg.Valid ∧ State.reset.Inv ∧ State.reset.cfg.Valid :=
  ⟨test_sA_inv, by decide, inv_of_check (by decide), by decide⟩

theorem witness_ResetValues : State.reset.cfg = Config.reference := rfl

theorem witness_ShiftsCompose :
    ran (.bvShli 2 3) sA = true ∧ ran (.bvShli 2 4) (after (.bvShli 2 3) sA) = true ∧ ran (.bvShli 2 (3 + 4)) sA = true := by
  decide

theorem witness_BvCommandsKeepCapacitiesAndOtherVectors :
    (Instr.bvShli 2 3).unit = 1 ∧ ran (.bvShli 2 3) sA = true ∧ (∀ a n, Instr.bvShli 2 3 ≠ .bvNew a n) ∧
    (Instr.bvShli 2 3).vDest ≠ some 1 := by
  refine ⟨rfl, by decide, ?_, by decide⟩
  intro a n h
  cases h

theorem witness_WrInitConstructsTheWriter :
    (sA.getX 6).toNat = sA.cfg.bufmax ∧ (sA.getX 7).toNat = sA.cfg.bufmax + 1 ∧ (sA.getX 0).toNat ≤ sA.cfg.bufmax := by
  decide

/-- Each width exactly fitting and one bit short. -/
theorem witness_IntegerWritesAppendLowBits :
    ∀ n ∈ [1, 8, 16, 32, 64],
      ({ sA with wpos := 80 - n }.wpos + n ≤ 8 * sA.wcap) ∧ (8 * sA.wcap < { sA with wpos := 80 - n + 1 }.wpos + n) := by
  decide

/-- A run that exactly fits, one that is one bit too long, and the empty run at the end. -/
theorem witness_VectorWriteAppendsAllBits :
    { sA with wpos := 76 }.wpos + sA.getVN 1 ≤ 8 * sA.wcap ∧ 8 * sA.wcap < { sA with wpos := 77 }.wpos + sA.getVN 1 ∧
    { sA with wpos := 80 }.wpos + sA.getVN 0 ≤ 8 * sA.wcap := by decide

theorem witness_WrPadZeroFillsToTheBoundary :
    { sA with wpos := 80 }.wpos ≤ 8 * sA.wcap ∧ { sA with wpos := 73 }.wpos ≤ 8 * sA.wcap := by decide

/-- The last byte of the output and the first beyond it. -/
theorem witness_WrGetbReadsAByteOfGetBytes :
    ({ sA with wpos := 25 }.wpos ≤ 8 * sA.wcap) ∧ (sA.getX 3).toNat < (25 + 7) / 8 ∧ (25 + 7) / 8 ≤ (sA.getX 4).toNat := by
  decide

theorem witness_AlignedWritesAreLittleEndian :
    ∀ n ∈ [1, 2, 4, 8], { sA with wpos := 80 - 8 * n }.wpos % 8 = 0 ∧ { sA with wpos := 80 - 8 * n }.wpos + 8 * n ≤ 8 * sA.wcap := by
  decide

/-- A value in `X0` with its halves in `X1` and `X2`, for each width. -/
def halves (p : Nat) : State :=
  ((sA.setX 0 0x0123456789ABCDEF).setX 1 (0x0123456789ABCDEF % 2 ^ p)).setX 2 (0x0123456789ABCDEF >>> p)

theorem witness_IntegerWritesSplitIntoHalves :
    ∀ p ∈ [(8, Instr.wrU16 0, Instr.wrU8 1, Instr.wrU8 2), (16, .wrU32 0, .wrU16 1, .wrU16 2),
        (32, .wrU64 0, .wrU32 1, .wrU32 2)],
      (∀ j, j < p.1 → ((halves p.1).getX 1).getLsbD j = ((halves p.1).getX 0).getLsbD j) ∧
      (∀ j, j < p.1 → ((halves p.1).getX 2).getLsbD j = ((halves p.1).getX 0).getLsbD (p.1 + j)) ∧
      (halves p.1).wpos + 2 * p.1 ≤ 8 * (halves p.1).wcap ∧
      ran p.2.1 (halves p.1) = true ∧ ran p.2.2.1 (halves p.1) = true ∧
      ran p.2.2.2 (after p.2.2.1 (halves p.1)) = true := by decide

theorem witness_WriterOnlyAppends :
    (Instr.wrU64 5).unit = 2 ∧ (∀ a, Instr.wrU64 5 ≠ .wrInit a) ∧ exec (.wrU64 5) sA = .next (after (.wrU64 5) sA) :=
  ⟨rfl, by decide, next_of_ran (by decide)⟩

/-- One byte short of full, and full. -/
theorem witness_RdInitAndPutbBuildTheInput :
    { sA with rlen := 2047 }.rlen < sA.cfg.bufmax ∧ sA.cfg.bufmax ≤ { sA with rlen := 2048 }.rlen := by decide

theorem witness_RdLdwCopiesGetBytes : { sA with wpos := 80 }.wpos ≤ 8 * sA.wcap ∧ sA.wpos ≤ 8 * sA.wcap := by decide

/-- Each width, unsigned and signed, exactly there and one bit short. -/
theorem witness_UnsignedReadsZeroExtend_and_SignedReadsSignExtend :
    ∀ n ∈ [1, 8, 16, 32, 64],
      ({ sA with rpos := 72 - n }.rpos + n ≤ 8 * sA.rlen) ∧ (8 * sA.rlen < { sA with rpos := 72 - n + 1 }.rpos + n) := by
  decide

/-- The empty run at the end, the longest run exactly there and one bit short, and one longer than `VMAX`. -/
theorem witness_VectorReadTakesTheNextBits :
    (0 ≤ sA.cfg.vmax ∧ { sA with rpos := 72 }.rpos + 0 ≤ 8 * sA.rlen) ∧
    (256 ≤ sA.cfg.vmax ∧ { sA with rlen := 33, rpos := 8 }.rpos + 256 ≤ 8 * 33) ∧
    (256 ≤ sA.cfg.vmax ∧ 8 * 33 < { sA with rlen := 33, rpos := 9 }.rpos + 256) ∧ sA.cfg.vmax < 257 := by decide

/-- The hypotheses of a round trip of `n` bits from position 3 of a full-size writer: the write, further writes, `RD.LDW`,
and three one-bit reads that bring the reader to position 3. -/
theorem roundTrip_meets (i : Instr)
    (h : ran i sA = true ∧ ranAll [.wrBit 1, .wrPad] (after i sA) = true ∧
      ran .rdLdw (afterAll [.wrBit 1, .wrPad] (after i sA)) = true ∧
      ranAll [.rdBit 7, .rdBit 7, .rdBit 7] (after .rdLdw (afterAll [.wrBit 1, .wrPad] (after i sA))) = true ∧
      (afterAll [.rdBit 7, .rdBit 7, .rdBit 7] (after .rdLdw (afterAll [.wrBit 1, .wrPad] (after i sA)))).rpos = sA.wpos) :
    ∃ t u v r, exec i sA = .next t ∧ Performs [.wrBit 1, .wrPad] t u ∧ exec .rdLdw u = .next v ∧
      Performs [.rdBit 7, .rdBit 7, .rdBit 7] v r ∧ r.rpos = sA.wpos :=
  ⟨_, _, _, _, next_of_ran h.1, performs_of_ranAll h.2.1, next_of_ran h.2.2.1, performs_of_ranAll h.2.2.2.1, h.2.2.2.2⟩

theorem witness_roundTrip_lists :
    (∀ i ∈ [Instr.wrBit 1, .wrPad], i.appends = true) ∧
    (∀ i ∈ [Instr.rdBit 7, .rdBit 7, .rdBit 7], i.consumes = true) := by decide

theorem witness_IntegersRoundTrip_1 :
    sA.wpos + 1 ≤ 8 * sA.wcap ∧ ∃ t u v r, exec (.wrBit 5) sA = .next t ∧ Performs [.wrBit 1, .wrPad] t u ∧
      exec .rdLdw u = .next v ∧ Performs [.rdBit 7, .rdBit 7, .rdBit 7] v r ∧ r.rpos = sA.wpos :=
  ⟨by decide, roundTrip_meets (.wrBit 5) (by decide)⟩

theorem witness_IntegersRoundTrip_8 :
    sA.wpos + 8 ≤ 8 * sA.wcap ∧ ∃ t u v r, exec (.wrU8 5) sA = .next t ∧ Performs [.wrBit 1, .wrPad] t u ∧
      exec .rdLdw u = .next v ∧ Performs [.rdBit 7, .rdBit 7, .rdBit 7] v r ∧ r.rpos = sA.wpos :=
  ⟨by decide, roundTrip_meets (.wrU8 5) (by decide)⟩

theorem witness_IntegersRoundTrip_16 :
    sA.wpos + 16 ≤ 8 * sA.wcap ∧ ∃ t u v r, exec (.wrU16 5) sA = .next t ∧ Performs [.wrBit 1, .wrPad] t u ∧
      exec .rdLdw u = .next v ∧ Performs [.rdBit 7, .rdBit 7, .rdBit 7] v r ∧ r.rpos = sA.wpos :=
  ⟨by decide, roundTrip_meets (.wrU16 5) (by decide)⟩

theorem witness_IntegersRoundTrip_32 :
    sA.wpos + 32 ≤ 8 * sA.wcap ∧ ∃ t u v r, exec (.wrU32 5) sA = .next t ∧ Performs [.wrBit 1, .wrPad] t u ∧
      exec .rdLdw u = .next v ∧ Performs [.rdBit 7, .rdBit 7, .rdBit 7] v r ∧ r.rpos = sA.wpos :=
  ⟨by decide, roundTrip_meets (.wrU32 5) (by decide)⟩

theorem witness_IntegersRoundTrip_64 :
    sA.wpos + 64 ≤ 8 * sA.wcap ∧ ∃ t u v r, exec (.wrU64 5) sA = .next t ∧ Performs [.wrBit 1, .wrPad] t u ∧
      exec .rdLdw u = .next v ∧ Performs [.rdBit 7, .rdBit 7, .rdBit 7] v r ∧ r.rpos = sA.wpos :=
  ⟨by decide, roundTrip_meets (.wrU64 5) (by decide)⟩

theorem witness_VectorsRoundTrip :
    sA.getVN 2 ≤ sA.cfg.vmax ∧ sA.wpos + sA.getVN 2 ≤ 8 * sA.wcap ∧ ∃ t u v r, exec (.wrV 2) sA = .next t ∧
      Performs [.wrBit 1, .wrPad] t u ∧ exec .rdLdw u = .next v ∧ Performs [.rdBit 7, .rdBit 7, .rdBit 7] v r ∧
      r.rpos = sA.wpos :=
  ⟨by decide, by decide, roundTrip_meets (.wrV 2) (by decide)⟩

/-- The distances at the ends of the ranges: 1, 32767, the antipode and the wrap. -/
theorem witness_SeqTestableProperties :
    (0 : XReg) ≠ 2 ∧ (0 : XReg) ≠ 3 ∧ (2 : XReg) ≠ 3 ∧
    ((sA.setX 1 1).getX 1).toNat % 65536 = 1 ∧ ((sA.setX 1 0x17FFF).getX 1).toNat % 65536 = 32767 ∧
    ((sA.setX 1 0x8000).getX 1).toNat % 65536 = 32768 ∧
    ((sA.getX 0).toNat % 65536 = 0 ∧ ((sA.setX 1 0xFFFF).getX 1).toNat % 65536 = 65535) := by decide

/-- An antipode, two numbers that differ and are no antipodes, a newer pair's distance, a window of 32767 numbers. -/
theorem witness_CircularOrderAndItsAntipode :
    distance ((sA.setX 1 100).getX 1) ((sA.setX 2 32868).getX 2) = 32768 ∧
    ((100 : SeqNo) ≠ 32867 ∧ (100 : SeqNo) ≠ 32867 + 32768) ∧ (0 < 32767 ∧ 32767 < 32768) := by decide

/-- A pair that is newer, so that the antisymmetry clause is about something. -/
theorem witness_CircularOrderAndItsAntipode_newer : Newer 20000 0 := by
  intro a b c s hb hc
  refine ⟨_, rfl, ⟨rfl, rfl, rfl, rfl⟩, ?_⟩
  rw [hb, hc]
  simp only [State.getX_answer, State.getX_setX_self]
  decide

theorem witness_AckInitConstructsTheTracker : 0 ≤ sA.cfg.vmax ∧ 256 ≤ sA.cfg.vmax ∧ sA.cfg.vmax < 257 := by decide

/-- The five cases of `ACK.RX` and their ends, for the mark 18 and width 4: the distance up is 0, 1, 4, 5, 32767, 32768,
65531, 65532 and 65535. -/
theorem witness_AckRxMovesTheWindow :
    [18, 19, 22, 23, 32785, 32786, 13, 14, 17].map
      (fun q => (((sA.setX 1 (BitVec.ofNat 64 q)).getX 1).toNat % 65536 + 65536 - sA.ahwm.toNat) % 65536) =
      [0, 1, 4, 5, 32767, 32768, 65531, 65532, 65535] ∧ sA.aw = 4 := by decide

theorem witness_AckRxTracksTheReceivedSet : sA.aw ≤ 4095 ∧ exec (.ackRx 1) sA = .next (after (.ackRx 1) sA) :=
  ⟨by decide, next_of_ran (by decide)⟩

/-- A command of each fault that a command can raise, with the response it gives. -/
theorem witness_FaultsArePrecise :
    (after (.wrU64 5) { sA with wcap := 1 }).responses = { sA with wcap := 1 }.responses ++ [⟨.fault .capacityError, 0⟩] ∧
    (after (.rdU64 5) { sA with rlen := 1 }).responses = { sA with rlen := 1 }.responses ++ [⟨.fault .formatError, 0⟩] ∧
    (after (.bvSeti 1 4) sA).responses = sA.responses ++ [⟨.fault .operandError, 0⟩] ∧
    ran (.wrU64 5) { sA with wcap := 1 } = true ∧ ran (.rdU64 5) { sA with rlen := 1 } = true ∧
    ran (.bvSeti 1 4) sA = true := by decide

/-- A transaction that ends with a fault in a step: a command that raises one, and a word that spells none. -/
theorem witness_FaultsArePrecise_step :
    step { sA with pending := [⟨0x11100004#32, 0⟩] } = .next (after (.bvSeti 1 4) { sA with din := 0 }) ∧
    (after (.bvSeti 1 4) { sA with din := 0 }).responses = sA.responses ++ [⟨.fault .operandError, 0⟩] ∧
    step { sA with pending := [⟨1#32, 0⟩] } = .next ({ sA with din := 0 }.takeFault .illegalCommand) ∧
    ({ sA with din := 0 }.takeFault .illegalCommand).responses = sA.responses ++ [⟨.fault .illegalCommand, 0⟩] :=
  ⟨rfl, by decide, rfl, rfl⟩

/-- A word that matches no row, as the next transaction. -/
theorem witness_FaultTable :
    sA.Inv ∧ { sA with pending := [⟨0x00000001#32, 0⟩] }.pending = (⟨0x00000001#32, 0⟩ : Transaction) :: [] ∧
    ∀ row ∈ opcodeTable, 0x00000001#32 &&& row.mask ≠ row.pattern :=
  ⟨test_sA_inv, rfl, by decide⟩

/-- FMTF is set: a command that leaves it, one that sets another bit, and the two that clear it. -/
theorem witness_FsrBitsAreSticky :
    sA.flag .formatError = true ∧ ran .nop sA = true ∧ ran (.bvSeti 1 4) sA = true ∧ Instr.nop ≠ .clrf ∧
    Instr.nop ≠ .srst ∧ ran .clrf sA = true ∧ ran .srst sA = true := by decide

end Sys2Proof.Tests
end

section
/-! Rules R23, R28, R29 and R30 of spec/10_state.md: the reset state, the invariant and that every step keeps it, what
each family of commands leaves unchanged, and the part `FSR` plays. -/

namespace Sys2Proof.Machine

open Sys2Proof

/-! ## The invariant of rule R28 under each update of the state -/

theorem ceil8_le_of_le {p n : Nat} (h : p ≤ 8 * n) : ceil8 p ≤ n := by unfold ceil8; omega

theorem le_ceil8 (p : Nat) : p ≤ 8 * ceil8 p := by unfold ceil8; omega

@[simp] theorem Memory.bit_nil (p : Nat) : Memory.bit [] p = false := by simp [Memory.bit]

@[simp] theorem State.getVN_resetWith (c : Config) (r : VReg) : (State.resetWith c).getVN r = 0 := by
  rw [State.getVN, State.getV_resetWith, List.length_nil]

theorem State.inv_resetWith (c : Config) : (State.resetWith c).Inv where
  wcap_le := Nat.zero_le _
  wbuf_lt := fun _ hc => absurd hc List.not_mem_nil
  wpos_le := Nat.le_refl 0
  tail_zero := fun p _ => Memory.bit_nil p
  rlen_le := Nat.zero_le _
  rbuf_lt := fun _ hc => absurd hc List.not_mem_nil
  rpos_le := Nat.le_refl 0
  vn_le := fun r => by rw [State.getVN_resetWith]; exact Nat.zero_le _
  aw_le := Nat.zero_le _

section Updates

variable {s : State} (h : s.Inv)
include h

theorem State.Inv.setX (r : XReg) (w : Word) : (s.setX r w).Inv := { h with }

theorem State.Inv.answer (st : Status) (d : Word) : (s.answer st d).Inv := { h with }

theorem State.Inv.takeFault (k : FaultKind) : (s.takeFault k).Inv := { h with }

theorem State.Inv.present (t : Transaction) (later : List Transaction) : (s.present t later).Inv := { h with }

theorem State.Inv.setV (r : VReg) {b : Bits} (hb : b.length ≤ s.cfg.vmax) : (s.setV r b).Inv :=
  { h with
    vn_le := fun q => by
      by_cases hq : q = r
      · subst hq; simpa using hb
      · simpa [hq] using h.vn_le q }

/-- The writer with another capacity, position and buffer. -/
theorem State.Inv.setWriter {cap pos : Nat} {buf : Memory} (hcap : cap ≤ s.cfg.bufmax) (hbuf : ∀ c ∈ buf, c.1 < cap)
    (hpos : pos ≤ 8 * cap) (htail : ∀ p, pos ≤ p → Memory.bit buf p = false) :
    ({ s with wcap := cap, wpos := pos, wbuf := buf } : State).Inv :=
  { h with wcap_le := hcap, wbuf_lt := hbuf, wpos_le := hpos, tail_zero := htail }

/-- The reader with another length, position and input. -/
theorem State.Inv.setReader {len pos : Nat} {buf : Memory} (hlen : len ≤ s.cfg.bufmax) (hbuf : ∀ c ∈ buf, c.1 < len)
    (hpos : pos ≤ 8 * len) : ({ s with rlen := len, rpos := pos, rbuf := buf } : State).Inv :=
  { h with rlen_le := hlen, rbuf_lt := hbuf, rpos_le := hpos }

/-- The tracker with another mark and window. -/
theorem State.Inv.setTracker (q : SeqNo) {win : Bits} (hw : win.length ≤ s.cfg.vmax) :
    ({ s with awin := win, ahwm := q } : State).Inv :=
  { h with aw_le := hw }

/-- A run that fits is appended (rule R130): the bits beyond its end are beyond the old position too. -/
theorem State.Inv.appended {t : Bits} (hfit : s.wpos + t.length ≤ 8 * s.wcap) : (s.appended t).Inv := by
  refine h.setWriter h.wcap_le (Memory.lt_of_mem_writeRun t h.wbuf_lt hfit) hfit fun p hp => ?_
  rw [Memory.bit_writeRun, if_neg (by omega)]
  exact h.tail_zero p (by omega)

/-- `WR.PAD` (rule R137) appends zero bits, and in the states of rule R28 they always fit. -/
theorem State.Inv.performed_wrPad : (s.performed .wrPad).Inv := by
  have hle := le_ceil8 s.wpos
  have hcap := ceil8_le_of_le h.wpos_le
  have hlen : s.wpos + (zeros (8 * ceil8 s.wpos - s.wpos)).length = 8 * ceil8 s.wpos := by rw [length_zeros]; omega
  have hpad : s.performed .wrPad = s.appended (zeros (8 * ceil8 s.wpos - s.wpos)) := by
    rw [State.appended, hlen]; rfl
  rw [hpad]
  exact h.appended (by omega)

theorem State.Inv.consumed {n : Nat} (hthere : s.rpos + n ≤ 8 * s.rlen) : (s.consumed n).Inv :=
  h.setReader h.rlen_le h.rbuf_lt hthere

/-- `RD.PAD` (rule R162) stays within the input, which is a whole number of bytes. -/
theorem State.Inv.performed_rdPad : (s.performed .rdPad).Inv :=
  h.setReader h.rlen_le h.rbuf_lt (Nat.mul_le_mul_left 8 (ceil8_le_of_le h.rpos_le))

/-- `RD.PUTB` (rule R152) puts one byte at the end of an input that is not full. -/
theorem State.Inv.performed_rdPutb (a : XReg) (hroom : s.rlen < s.cfg.bufmax) : (s.performed (.rdPutb a)).Inv := by
  refine h.setReader hroom (fun c hc => ?_) (Nat.le_trans h.rpos_le (by omega))
  rcases Memory.mem_write hc with hlast | hold
  · omega
  · exact Nat.lt_succ_of_lt (h.rbuf_lt c hold)

/-- `RD.LDW` (rule R153): what the writer holds is no longer than its capacity, so the reader can hold it. -/
theorem State.Inv.performed_rdLdw : (s.performed .rdLdw).Inv :=
  h.setReader (Nat.le_trans (ceil8_le_of_le h.wpos_le) h.wcap_le) (fun _ hc => (Memory.mem_take hc).2) (Nat.zero_le _)

/-- `ACK.RX` (rule R181) keeps the window's width. -/
theorem State.Inv.acked (q : SeqNo) : (s.acked q).Inv := by
  rw [acked_rest]
  exact h.setTracker _ ((length_acked s q).trans_le h.aw_le)

end Updates

/-! ## Every step keeps the invariant -/

/-- What holds after every fault a command can take and after the command when it takes none holds of every next
state. -/
theorem of_exec_next {i : Instr} {s t : State} {P : State → Prop} (he : exec i s = .next t)
    (hfault : ∀ k, faultOf i s = some k → P (s.takeFault k))
    (hperf : faultOf i s = none → P ((s.performed i).answer .ok (s.doutOf i))) : P t := by
  rcases exec_next he with ⟨k, hk, rfl⟩ | ⟨hn, rfl⟩
  · exact hfault k hk
  · exact hperf hn

/-- A command that raises nothing keeps the invariant: the table of rule R201 refuses every operand that would break
it. -/
theorem State.Inv.performed {i : Instr} {s : State} (h : s.Inv) (hf : faultOf i s = none) : (s.performed i).Inv := by
  cases i
  case nop | movo => exact h
  case clrf => exact { h with }
  case srst => exact { State.inv_resetWith s.cfg with }
  case bvNew a n => exact h.setV a (by simpa [faultOf] using hf)
  case bvSeti a _ | bvClri a _ | bvSet a _ | bvClr a _ => exact h.setV a ((length_setBitAt _ _ _).trans_le (h.vn_le a))
  case bvShli a _ | bvShl a _ => exact h.setV a ((length_shl _ _).trans_le (h.vn_le a))
  case bvClra a => exact h.setV a ((length_zeros _).trans_le (h.vn_le a))
  case wrInit a =>
    exact h.setWriter (by simpa [faultOf] using hf) (fun _ hc => absurd hc List.not_mem_nil) (Nat.zero_le _)
      fun p _ => Memory.bit_nil p
  case wrBit | wrU8 | wrU16 | wrU32 | wrU64 => exact h.appended (by simpa [faultOf] using hf)
  case wrV a =>
    have hfit : s.wpos + s.getVN a ≤ 8 * s.wcap := by simpa [faultOf] using hf
    exact h.appended hfit
  case wrPad => exact h.performed_wrPad
  case rdInit => exact h.setReader (Nat.zero_le _) (fun _ hc => absurd hc List.not_mem_nil) (Nat.zero_le _)
  case rdPutb a => exact h.performed_rdPutb a (by simpa [faultOf] using hf)
  case rdLdw => exact h.performed_rdLdw
  case rdBit | rdU8 | rdU16 | rdI16 | rdU32 | rdI32 | rdU64 => exact (h.consumed (by simpa [faultOf] using hf)).setX _ _
  case rdV a n =>
    have hn : ¬ s.cfg.vmax < n := fun hlt => by simp [faultOf, hlt] at hf
    have hthere : s.rpos + n ≤ 8 * s.rlen := by simpa [faultOf, hn] using hf
    exact (h.consumed hthere).setV a ((Memory.length_readRun _ _ _).trans_le (Nat.le_of_not_lt hn))
  case rdPad => exact h.performed_rdPad
  case ackInit a n => exact h.setTracker _ ((length_zeros n).trans_le (by simpa [faultOf] using hf))
  case ackRx a => exact h.acked _
  case ackWin a => exact h.setV a h.aw_le
  all_goals exact h.setX _ _

theorem State.Inv.exec {i : Instr} {s t : State} (h : s.Inv) (he : Machine.exec i s = .next t) : t.Inv :=
  of_exec_next he (fun k _ => h.takeFault k) fun hf => (h.performed hf).answer _ _

theorem State.Inv.step {s s' : State} (h : s.Inv) (hs : Machine.step s = .next s') : s'.Inv := by
  rcases step_cases s with ⟨_, e⟩ | ⟨t, later, i, _, _, e⟩ | ⟨t, later, _, _, _, e⟩
  · cases e.symm.trans hs; exact h
  · exact (h.present t later).exec (e.symm.trans hs)
  · cases e.symm.trans hs; exact (h.present t later).takeFault _

/-- Settles O11: the invariant rule of each update gives it for a performed command, a fault keeps it, and a step holds
the state, performs a command or takes a fault. -/
theorem everyStepKeepsInvariant : Obligations.EveryStepKeepsInvariant :=
  ⟨State.inv_resetWith Config.reference, fun _ _ h hs => h.step hs⟩

/-- Settles O10. -/
theorem resetSatisfiesInvariant : Obligations.ResetSatisfiesInvariant := State.inv_resetWith

/-! ## The reset values of rule R29 -/

/-- Settles O9: the registers by the lemmas of the reset state, its other fields and `SRST` by its definition. -/
theorem resetValues : Obligations.ResetValues := by
  intro c
  refine ⟨State.getX_resetWith c, fun r => ⟨State.getVN_resetWith c r, State.getV_resetWith c r⟩, rfl, rfl, rfl, rfl,
    rfl, rfl, rfl, rfl, rfl, rfl, ?_⟩
  rintro s' rfl
  exact completes_of_eq (u := s'.performed .srst) rfl rfl rfl rfl rfl rfl

/-! ## What each family leaves unchanged (rule R30) -/

/-- Only `WR` commands and `SRST` write the writer. -/
theorem performed_sameWriter {i : Instr} (s : State) (hu : i.unit ≠ 2) (hr : i ≠ .srst) :
    SameWriter s (s.performed i) := by
  cases i
  case srst => exact absurd rfl hr
  case wrInit | wrBit | wrU8 | wrU16 | wrU32 | wrU64 | wrV | wrPad | wrPos | wrLen | wrGetb => exact absurd rfl hu
  case ackRx a => show SameWriter s (s.acked _); rw [acked_rest]; exact .refl s
  all_goals exact .refl s

/-- Only `RD` commands and `SRST` write the reader. -/
theorem performed_sameReader {i : Instr} (s : State) (hu : i.unit ≠ 3) (hr : i ≠ .srst) :
    SameReader s (s.performed i) := by
  cases i
  case srst => exact absurd rfl hr
  case rdInit | rdPutb | rdLdw | rdBit | rdU8 | rdU16 | rdI16 | rdU32 | rdI32 | rdU64 | rdV | rdPad | rdPos | rdLen =>
    exact absurd rfl hu
  case ackRx a => show SameReader s (s.acked _); rw [acked_rest]; exact .refl s
  all_goals exact .refl s

/-- Only `ACK` commands and `SRST` write the tracker. -/
theorem performed_sameTracker {i : Instr} (s : State) (hu : i.unit ≠ 5) (hr : i ≠ .srst) :
    SameTracker s (s.performed i) := by
  cases i
  case srst => exact absurd rfl hr
  case ackInit | ackRx | ackHwm | ackWin | ackIsrx => exact absurd rfl hu
  all_goals exact .refl s

/-- A command that names no destination vector writes none, but for `SRST`. -/
theorem performed_sameV {i : Instr} (s : State) (hv : i.vDest = none) (hr : i ≠ .srst) : SameV s (s.performed i) := by
  cases i
  case srst => exact absurd rfl hr
  case bvNew | bvSeti | bvClri | bvSet | bvClr | bvShli | bvShl | bvClra | rdV | ackWin => exact absurd hv nofun
  case ackRx a => show SameV s (s.acked _); rw [acked_rest]; exact .refl s
  all_goals exact .refl s

/-- The families that name no destination vector: SYS, WR and SEQ. -/
theorem vDest_eq_none {i : Instr} (hu : i.unit = 0 ∨ i.unit = 2 ∨ i.unit = 4) : i.vDest = none := by
  cases i
  case bvNew | bvSeti | bvClri | bvSet | bvClr | bvShli | bvShl | bvClra | rdV | ackWin => simp [Instr.unit] at hu
  all_goals rfl

section Frames

variable {i : Instr} {s t : State} (he : exec i s = .next t) (hr : i ≠ .srst)
include he hr

theorem exec_sameWriter (hu : i.unit ≠ 2) : SameWriter s t :=
  of_exec_next he (fun _ _ => SameWriter.refl s) fun _ => performed_sameWriter s hu hr

theorem exec_sameReader (hu : i.unit ≠ 3) : SameReader s t :=
  of_exec_next he (fun _ _ => SameReader.refl s) fun _ => performed_sameReader s hu hr

theorem exec_sameTracker (hu : i.unit ≠ 5) : SameTracker s t :=
  of_exec_next he (fun _ _ => SameTracker.refl s) fun _ => performed_sameTracker s hu hr

theorem exec_sameV (hu : i.unit = 0 ∨ i.unit = 2 ∨ i.unit = 4) : SameV s t :=
  of_exec_next he (fun _ _ => SameV.refl s) fun _ => performed_sameV s (vDest_eq_none hu) hr

end Frames

/-- `SRST` belongs to SYS. -/
theorem ne_srst_of_unit {i : Instr} (hu : i.unit ≠ 0) : i ≠ .srst := by
  rintro rfl; exact hu rfl

/-- A SEQ command raises no fault (rule R201), so it leaves `FSR`. -/
theorem exec_seq_fsr {i : Instr} {s t : State} (he : exec i s = .next t) (hu : i.unit = 4) : t.fsr = s.fsr := by
  cases i
  case seqCmp | seqDif | seqAdd | seqSub => cases he; rfl
  all_goals simp [Instr.unit] at hu

/-- Settles O13: each family against the lemmas of the pieces it does not write. -/
theorem familiesWriteOnlyTheirState : Obligations.FamiliesWriteOnlyTheirState := by
  intro i s t he
  refine ⟨fun hu hr => ?sys, fun hu => ?bv, fun hu => ?wr, fun hu => ?rd, fun hu => ?seq, fun hu => ?ack⟩
  case sys =>
    exact ⟨exec_sameV he hr (by omega), exec_sameWriter he hr (by omega), exec_sameReader he hr (by omega),
      exec_sameTracker he hr (by omega)⟩
  all_goals have hr : i ≠ .srst := ne_srst_of_unit (by omega)
  case bv =>
    exact ⟨exec_sameWriter he hr (by omega), exec_sameReader he hr (by omega), exec_sameTracker he hr (by omega)⟩
  case wr => exact ⟨exec_sameV he hr (by omega), exec_sameReader he hr (by omega), exec_sameTracker he hr (by omega)⟩
  case rd => exact ⟨exec_sameWriter he hr (by omega), exec_sameTracker he hr (by omega)⟩
  case seq =>
    exact ⟨exec_sameV he hr (by omega), exec_sameWriter he hr (by omega), exec_sameReader he hr (by omega),
      exec_sameTracker he hr (by omega), exec_seq_fsr he hu⟩
  case ack => exact ⟨exec_sameWriter he hr (by omega), exec_sameReader he hr (by omega)⟩

/-! ## `FSR` (rule R23) -/

/-- The state with another `FSR`. -/
def State.withFsr (s : State) (f : BitVec 4) : State := { s with fsr := f }

theorem withFsr_takeFault (s : State) (f : BitVec 4) (k : FaultKind) :
    (s.withFsr f).takeFault k = (s.takeFault k).withFsr (setFsr f k) := rfl

theorem withFsr_answer (s : State) (f : BitVec 4) (st : Status) (d : Word) :
    (s.withFsr f).answer st d = (s.answer st d).withFsr f := rfl

theorem faultOf_withFsr (i : Instr) (s : State) (f : BitVec 4) : faultOf i (s.withFsr f) = faultOf i s := by
  cases i <;> rfl

theorem doutOf_withFsr (i : Instr) (s : State) (f : BitVec 4) : (s.withFsr f).doutOf i = s.doutOf i := by
  cases i <;> rfl

theorem beyond_withFsr (i : Instr) (s : State) (f : BitVec 4) : (s.withFsr f).beyond i ↔ s.beyond i := by
  cases i <;> exact Iff.rfl

theorem acked_withFsr (s : State) (f : BitVec 4) (q : SeqNo) : (s.withFsr f).acked q = (s.acked q).withFsr f := by
  unfold State.acked
  rw [apply_ite (State.withFsr · f), apply_ite (State.withFsr · f)]
  rfl

/-- What a command but `GETF` does to the rest of the state does not depend on `FSR`; only `CLRF` and `SRST` write it. -/
theorem performed_withFsr {i : Instr} (s : State) (f : BitVec 4) (hi : ∀ a, i ≠ .getf a) :
    ∃ g, (s.withFsr f).performed i = (s.performed i).withFsr g := by
  cases i
  case getf a => exact absurd rfl (hi a)
  case clrf | srst => exact ⟨0, rfl⟩
  case ackRx a => exact ⟨f, acked_withFsr s f _⟩
  all_goals exact ⟨f, rfl⟩

/-- Where a command would reach a byte that does not exist, it stops (assumption log 6). -/
theorem exec_of_beyond {i : Instr} {s : State} (hb : s.beyond i) : exec i s = .fault .noSuchByte := by
  cases i
  case wrPad => exact if_pos hb
  case wrGetb a b =>
    obtain ⟨hcap, hlen⟩ := hb
    exact (if_neg (Nat.not_le.2 hlen)).trans (if_pos hcap)
  case rdLdw => exact if_pos hb
  all_goals exact hb.elim

/-- Where every byte a command reaches exists, it does what the table of rule R201 says. -/
theorem exec_of_not_beyond {i : Instr} {s : State} (hb : ¬ s.beyond i) :
    (∀ k, faultOf i s = some k → exec i s = .next (s.takeFault k)) ∧
    (faultOf i s = none → exec i s = .next ((s.performed i).answer .ok (s.doutOf i))) := by
  rcases exec_spec i s with ⟨hbeyond, _⟩ | ⟨k, hk, e⟩ | ⟨hn, e⟩
  · exact absurd hbeyond hb
  · refine ⟨fun l hl => ?_, fun hn => ?_⟩
    · cases hk.symm.trans hl; exact e
    · cases hk.symm.trans hn
  · exact ⟨fun l hl => (by cases hn.symm.trans hl), fun _ => e⟩

/-- Settles O16: the fault table, the performed command and the response are the same for any `FSR`. -/
theorem fsrInfluencesNoResult : Obligations.FsrInfluencesNoResult := by
  intro i s t f hi he
  show ∃ g, exec i (s.withFsr f) = .next (t.withFsr g)
  have hb : ¬ (s.withFsr f).beyond i := fun hbeyond => by
    cases (exec_of_beyond ((beyond_withFsr i s f).1 hbeyond)).symm.trans he
  obtain ⟨hraise, hperform⟩ := exec_of_not_beyond hb
  rw [faultOf_withFsr] at hraise hperform
  rcases exec_next he with ⟨k, hk, rfl⟩ | ⟨hn, rfl⟩
  · exact ⟨setFsr f k, by rw [hraise k hk, withFsr_takeFault]⟩
  · obtain ⟨g, hg⟩ := performed_withFsr s f hi
    exact ⟨g, by rw [hperform hn, hg, doutOf_withFsr, withFsr_answer]⟩

/-- Settles O60: a fault only sets bits, a performed command other than `CLRF` and `SRST` keeps all four, and these two
raise no fault. -/
theorem fsrBitsAreSticky : Obligations.FsrBitsAreSticky := by
  intro i s t k he hk
  rcases exec_next he with ⟨l, hl, rfl⟩ | ⟨_, rfl⟩
  · refine ⟨fun _ => flag_setFsr_of_flag s.fsr k l hk, ?_⟩
    rintro (rfl | rfl) <;> cases hl
  · refine ⟨fun ⟨hc, hr⟩ => ?_, ?_⟩
    · show (s.performed i).fsr.getLsbD _ = true
      rw [performed_fsr i s hc hr]; exact hk
    · rintro (rfl | rfl) <;> rfl

end Sys2Proof.Machine
end

section
/-! Rules R50 to R53 and R59 of spec/20_memory.md: a step performs the command its word decodes to, every step keeps
both buffer spaces in the canonical form, and integers written at a byte boundary are stored in little-endian order. -/

namespace Sys2Proof.Machine

open Sys2Proof

/-! ## A step performs the decoded command (rules R59 and R70) -/

/-- Settles O6: the step rule for a word that spells a command, its state written out. -/
theorem stepRunsTheDecodedCommand : Obligations.StepRunsTheDecodedCommand :=
  fun _ _ _ _ hpending hdecode => step_ok hpending hdecode

/-! ## The canonical form of the buffer spaces (assumption log 5) -/

theorem State.canonical_resetWith (c : Config) : (State.resetWith c).Canonical := ⟨rfl, rfl⟩

/-- A command that raises nothing keeps the canonical form: it empties a buffer space, writes one by bit runs or by
bytes, copies the head of the writer's buffer, or leaves both. -/
theorem State.Canonical.performed {s : State} (h : s.Canonical) (i : Instr) : (s.performed i).Canonical := by
  obtain ⟨hwbuf, hrbuf⟩ := h
  cases i
  case srst => exact State.canonical_resetWith s.cfg
  case wrInit => exact ⟨rfl, hrbuf⟩
  case wrBit | wrU8 | wrU16 | wrU32 | wrU64 | wrV | wrPad => exact ⟨Memory.wf_writeRun _ _ hwbuf, hrbuf⟩
  case rdInit => exact ⟨hwbuf, rfl⟩
  case rdPutb => exact ⟨hwbuf, Memory.wf_write _ _ hrbuf⟩
  case rdLdw => exact ⟨hwbuf, Memory.wf_take _ hwbuf⟩
  case ackRx a => show (s.acked _).Canonical; rw [acked_rest]; exact ⟨hwbuf, hrbuf⟩
  all_goals exact ⟨hwbuf, hrbuf⟩

/-- Neither a fault nor a response writes a buffer space. -/
theorem State.Canonical.exec {i : Instr} {s t : State} (h : s.Canonical) (he : Machine.exec i s = .next t) :
    t.Canonical :=
  of_exec_next he (fun _ _ => h) fun _ => h.performed i

theorem State.Canonical.step {s s' : State} (h : s.Canonical) (hs : Machine.step s = .next s') : s'.Canonical := by
  rcases step_cases s with ⟨_, e⟩ | ⟨t, later, i, _, _, e⟩ | ⟨t, later, _, _, _, e⟩
  · cases e.symm.trans hs; exact h
  · have hpresent : (s.present t later).Canonical := h
    exact hpresent.exec (e.symm.trans hs)
  · cases e.symm.trans hs; exact h

/-- Settles O12: both buffers are empty at reset, and a step holds the state, performs a command or takes a fault. -/
theorem everyStepKeepsCanonicalMemory : Obligations.EveryStepKeepsCanonicalMemory :=
  ⟨State.canonical_resetWith Config.reference, fun _ _ h hs => h.step hs⟩

/-! ## Integers at a byte boundary (rule R53) -/

/-- Bit `j` of byte `q` stands at position `8*q + j` (rule R51). -/
theorem Memory.getLsbD_read (m : Memory) (q : Nat) {j : Nat} (hj : j < 8) :
    (Memory.read m q).getLsbD j = Memory.bit m (8 * q + j) := by
  rw [Memory.bit, show (8 * q + j) / 8 = q by omega, show (8 * q + j) % 8 = j by omega]

/-- Byte `k` of a run of low bits that starts at a byte boundary holds bits `8*k .. 8*k + 7` of the register. -/
theorem Memory.read_writeRun_lowBits (m : Memory) {p n k : Nat} (w : Word) (hp : p % 8 = 0) (hk : k < n) :
    Memory.read (Memory.writeRun m p (lowBits (8 * n) w)) (p / 8 + k) = w.extractLsb' (8 * k) 8 := by
  apply BitVec.eq_of_getLsbD_eq
  intro j hj
  have hpos : 8 * (p / 8 + k) + j = p + (8 * k + j) := by omega
  rw [Memory.getLsbD_read _ _ hj, hpos, Memory.bit_writeRun, length_lowBits, if_pos (by omega), Nat.add_sub_cancel_left,
    getD_lowBits, if_pos (by omega), BitVec.getLsbD_extractLsb', decide_eq_true hj, Bool.true_and]

/-- The `n` bytes from `WPOS div 8` hold the low `n` bytes of `w`, least significant first, and every other byte of the
writer's buffer is kept (rule R53). -/
def LittleEndianStored (n : Nat) (w : Word) (s t : State) : Prop :=
  (∀ k, k < n → Memory.read t.wbuf (s.wpos / 8 + k) = w.extractLsb' (8 * k) 8) ∧
  (∀ q, q < s.wpos / 8 ∨ s.wpos / 8 + n ≤ q → Memory.read t.wbuf q = Memory.read s.wbuf q)

theorem littleEndianStored_appended {s : State} {n : Nat} (w : Word) (hp : s.wpos % 8 = 0) :
    LittleEndianStored n w s ((s.appended (lowBits (8 * n) w)).answer .ok 0) := by
  refine ⟨fun k hk => Memory.read_writeRun_lowBits s.wbuf w hp hk, fun q hq => ?_⟩
  refine Memory.read_writeRun (lowBits (8 * n) w) s.wbuf s.wpos q ?_
  rw [length_lowBits, ceil8]
  omega

/-- A command that writes the low `n` bytes of a word, at a byte boundary and where they fit. -/
theorem completes_alignedWrite {i : Instr} {s : State} {n : Nat} {w : Word}
    (he : exec i s = writeBits (lowBits (8 * n) w) s) (hp : s.wpos % 8 = 0) (hfit : s.wpos + 8 * n ≤ 8 * s.wcap) :
    Completes i s (LittleEndianStored n w s) :=
  completes_of_eq (he.trans (writeBits_fits (by rwa [length_lowBits]))) rfl rfl rfl rfl
    (littleEndianStored_appended w hp)

/-- Settles O37: each of the four commands writes the low 1, 2, 4 or 8 bytes of its register. -/
theorem alignedWritesAreLittleEndian : Obligations.AlignedWritesAreLittleEndian := by
  intro a s hp
  simp only [List.forall_mem_cons]
  exact ⟨completes_alignedWrite rfl hp, completes_alignedWrite rfl hp, completes_alignedWrite rfl hp,
    completes_alignedWrite rfl hp, nofun⟩

end Sys2Proof.Machine
end

section
/-! Spec file 30_encoding.md, the command word (rules R71 to R77): decode and encode are inverse to each other, a word
spells a command exactly when it matches the command's row, and the illegal words are the four kinds of rule R75. The
decoder is compared with the format tables of rules R72 to R74 once, opcode by opcode, in `decode_row`; what follows
argues about formats. -/

namespace Sys2Proof

open Sys2Proof.Machine Sys2Proof.Laws

/-! ## Formats (rules R72 and R73) -/

/-- The values a register field may hold under a use. -/
def Use.Fits : Use → Nat → Prop
  | .unused, n => n = 0
  | .x, n => n < 8
  | .v, n => n < 4

/-- The number of the register a field names under a use; 0 for an unused field. -/
def Use.read (w : CmdWord) (lo : Nat) : Use → Nat
  | .unused => 0
  | .x => xField w lo
  | .v => vField w lo

/-- The use of a register field that some opcodes leave unused and for some others is of kind `V`. -/
def useOf (unused vector : Prop) [Decidable unused] [Decidable vector] : Use :=
  if unused then .unused else if vector then .v else .x

/-- The format of a command word: the uses of the fields `a`, `b`, `c`, and whether it has an immediate. -/
structure Format where
  a : Use
  b : Use
  c : Use
  imm : Bool

/-- The format of an opcode, by the format tables of rules R72 to R74. -/
def formatOf (op : Nat) : Format where
  a := useOf (op ∈ opsWithoutA) (op ∈ opsWithVectorA)
  b := useOf (op ∉ opsWithB) (op ∈ opsWithVectorB)
  c := useOf (op ∉ opsWithC) False
  imm := decide (op ∈ opsWithImm)

/-- The decoder's check of a word against a format. -/
def Format.check (f : Format) (w : CmdWord) (i : Instr) : Except IllegalWord Instr := checkWord w f.a f.b f.c f.imm i

/-- The word obeys the format: its reserved bits and what the format does not use are zero, and its registers exist. -/
structure Format.Admits (f : Format) (w : CmdWord) : Prop where
  reserved : reservedSet w = false
  a : f.a.Fits (field w 20 3)
  b : f.b.Fits (field w 16 3)
  c : f.c.Fits (field w 12 3)
  imm : f.imm = true ∨ field w 0 12 = 0

theorem Use.Fits.lt_eight {u : Use} {n : Nat} (h : u.Fits n) : n < 8 := by
  cases u
  case unused => exact h ▸ (by decide : 0 < 8)
  case x => exact h
  case v => exact Nat.lt_trans h (by decide)

theorem Use.fits_field_iff (u : Use) (w : CmdWord) (lo : Nat) :
    u.Fits (field w lo 3) ↔ unusedSet w lo u = false ∧ vectorSet w lo u = false := by
  cases u
  case unused => simp [Use.Fits, unusedSet, vectorSet]
  case x => simpa [Use.Fits, unusedSet, vectorSet] using field_lt w lo 3
  case v => simp [Use.Fits, unusedSet, vectorSet, field_bit2]

/-- A register field that fits its use holds the number of the register read from it. -/
theorem Use.Fits.read_eq {u : Use} {w : CmdWord} {lo : Nat} (h : u.Fits (field w lo 3)) :
    u.read w lo = field w lo 3 := by
  cases u
  case unused => exact h.symm
  case x => rfl
  case v => exact (field_low2 w lo).trans (Nat.mod_eq_of_lt h)

theorem Format.check_eq_ok_iff (f : Format) (w : CmdWord) (i j : Instr) :
    f.check w i = .ok j ↔ i = j ∧ f.Admits w := by
  rw [Format.check, checkWord_ok_iff]
  constructor
  · rintro ⟨hij, hr, ⟨ha, hb, hc, hi⟩, hva, hvb, hvc⟩
    exact ⟨hij, hr, (f.a.fits_field_iff w 20).2 ⟨ha, hva⟩, (f.b.fits_field_iff w 16).2 ⟨hb, hvb⟩,
      (f.c.fits_field_iff w 12).2 ⟨hc, hvc⟩, hi⟩
  · rintro ⟨hij, hr, ha, hb, hc, hi⟩
    obtain ⟨ha, hva⟩ := (f.a.fits_field_iff w 20).1 ha
    obtain ⟨hb, hvb⟩ := (f.b.fits_field_iff w 16).1 hb
    obtain ⟨hc, hvc⟩ := (f.c.fits_field_iff w 12).1 hc
    exact ⟨hij, hr, ⟨ha, hb, hc, hi⟩, hva, hvb, hvc⟩

/-- A word that obeys its format is assembled from the operands read from it. -/
theorem Format.Admits.wordOf_read {f : Format} {w : CmdWord} (h : f.Admits w) :
    wordOf (opOf w) (f.a.read w 20) (f.b.read w 16) (f.c.read w 12) (bif f.imm then field w 0 12 else 0) = w := by
  have himm : (bif f.imm then field w 0 12 else 0) = field w 0 12 := by
    rcases h.imm with hi | hi <;> simp [hi]
  rw [h.a.read_eq, h.b.read_eq, h.c.read_eq, himm]
  exact (eq_wordOf_fields h.reserved).symm

/-! ## The decoder, opcode by opcode -/

theorem immOk_field (w : CmdWord) : immOk (field w 0 12) = true := decide_eq_true (field_lt w 0 12)

/-- The decoder's line for an opcode of rule R74: it checks the word against the opcode's format, and the command it
builds has that opcode, an immediate only if the format has one, and the operands read from the word. -/
theorem decode_row {w : CmdWord} (h : opOf w ∈ definedOps) :
    ∃ i, decode w = (formatOf (opOf w)).check w i ∧ OpcodeField.opcode i = opOf w ∧
      i.wf = (!(formatOf (opOf w)).imm || immOk (field w 0 12)) ∧
      encode i = wordOf (opOf w) ((formatOf (opOf w)).a.read w 20) ((formatOf (opOf w)).b.read w 16)
        ((formatOf (opOf w)).c.read w 12) (bif (formatOf (opOf w)).imm then field w 0 12 else 0) := by
  unfold decode
  split
  -- the decoder's last line goes first: it is for the other opcodes
  rotate_right 1
  · simp_all only [definedOps, List.cons_append, List.nil_append, List.mem_cons, List.not_mem_nil, or_false, imp_false]
  all_goals
    rename_i hop
    rw [hop]
    exact ⟨_, rfl, rfl, rfl, rfl⟩

/-- The decoder's last line (item 1 of rule R75). -/
theorem decode_undefined {w : CmdWord} (h : opOf w ∉ definedOps) : decode w = .error .noSuchOpcode := by
  unfold decode
  split
  -- again the decoder's last line goes first; on every other line the opcode is a listed one
  rotate_right 1
  · rfl
  all_goals exact absurd (by simp only [*]; decide) h

/-- What decoding a word to a command says of both. -/
theorem decode_ok {w : CmdWord} {i : Instr} (h : decode w = .ok i) :
    opOf w ∈ definedOps ∧ (formatOf (opOf w)).Admits w ∧ OpcodeField.opcode i = opOf w ∧ i.wf = true ∧ encode i = w := by
  have hop : opOf w ∈ definedOps := by
    by_contra hop
    cases h.symm.trans (decode_undefined hop)
  obtain ⟨j, hdec, hopcode, hwf, henc⟩ := decode_row hop
  obtain ⟨rfl, hw⟩ := (Format.check_eq_ok_iff _ w j i).1 (hdec.symm.trans h)
  refine ⟨hop, hw, hopcode, ?_, henc.trans hw.wordOf_read⟩
  rw [hwf, immOk_field, Bool.or_true]

/-- A word of a defined opcode that obeys the opcode's format spells a command. -/
theorem exists_decode_ok {w : CmdWord} (hop : opOf w ∈ definedOps) (hw : (formatOf (opOf w)).Admits w) :
    ∃ i, decode w = .ok i := by
  obtain ⟨i, hdec, -⟩ := decode_row hop
  exact ⟨i, hdec.trans ((Format.check_eq_ok_iff _ w i i).2 ⟨rfl, hw⟩)⟩

/-- The words that spell a command. -/
theorem exists_decode_ok_iff (w : CmdWord) :
    (∃ i, decode w = .ok i) ↔ opOf w ∈ definedOps ∧ (formatOf (opOf w)).Admits w := by
  constructor
  · rintro ⟨i, h⟩
    obtain ⟨hop, hw, -⟩ := decode_ok h
    exact ⟨hop, hw⟩
  · exact fun ⟨hop, hw⟩ => exists_decode_ok hop hw

/-! ## Decode and encode are inverse to each other -/

/-- A command whose operands fit the format of its opcode is decoded from its word, when the decoder's line for the
opcode, given a word with these operands in its fields, builds this command. -/
theorem decode_encode_of_row {i : Instr} {op a b c imm : Nat} (he : encode i = wordOf op a b c imm) (ho : op < 256)
    (ha : (formatOf op).a.Fits a) (hb : (formatOf op).b.Fits b) (hc : (formatOf op).c.Fits c) (hi : imm < 4096)
    (huse : (formatOf op).imm = true ∨ imm = 0)
    (hrow : ∀ w, opOf w = op → field w 20 3 = a → field w 16 3 = b → field w 12 3 = c → field w 0 12 = imm →
      decode w = (formatOf op).check w i) : decode (encode i) = .ok i := by
  have hA := fieldA_wordOf ho ha.lt_eight hb.lt_eight hc.lt_eight hi
  have hB := fieldB_wordOf ho ha.lt_eight hb.lt_eight hc.lt_eight hi
  have hC := fieldC_wordOf ho ha.lt_eight hb.lt_eight hc.lt_eight hi
  have hI := fieldImm_wordOf ho ha.lt_eight hb.lt_eight hc.lt_eight hi
  rw [he, hrow _ (opOf_wordOf ho ha.lt_eight hb.lt_eight hc.lt_eight hi) hA hB hC hI, Format.check_eq_ok_iff]
  exact ⟨rfl, reservedSet_wordOf ho ha.lt_eight hb.lt_eight hc.lt_eight hi, hA.symm ▸ ha, hB.symm ▸ hb, hC.symm ▸ hc,
    hI.symm ▸ huse⟩

/-- Settles O1: command by command, the shapes of operands together; the decoder's line reads back each operand. -/
theorem decodeInvertsEncode : Obligations.DecodeInvertsEncode := by
  intro i hwf
  cases i
  case nop | clrf | srst | wrPad | rdInit | rdLdw | rdPad =>
    exact decode_encode_of_row rfl (by decide) rfl rfl rfl (by decide) (.inr rfl) fun w ho _ _ _ _ => by
      rw [decode, ho]; rfl
  case movi a | movo a | getf a | wrInit a | wrBit a | wrU8 a | wrU16 a | wrU32 a | wrU64 a | wrPos a | wrLen a |
      rdPutb a | rdBit a | rdU8 a | rdU16 a | rdI16 a | rdU32 a | rdI32 a | rdU64 a | rdPos a | rdLen a | ackRx a |
      ackHwm a =>
    exact decode_encode_of_row rfl (by decide) a.isLt rfl rfl (by decide) (.inr rfl) fun w ho ha _ _ _ => by
      rw [decode, ho, xField_eq ha]; rfl
  case bvClra a | wrV a | ackWin a =>
    exact decode_encode_of_row rfl (by decide) a.isLt rfl rfl (by decide) (.inr rfl) fun w ho ha _ _ _ => by
      rw [decode, ho, vField_eq ha]; rfl
  case li a n | ackInit a n =>
    exact decode_encode_of_row rfl (by decide) a.isLt rfl rfl (immOk_lt hwf) (.inl rfl) fun w ho ha _ _ hi => by
      rw [decode, ho, xField_eq ha, hi]; rfl
  case bvNew a n | bvSeti a n | bvClri a n | bvShli a n | rdV a n =>
    exact decode_encode_of_row rfl (by decide) a.isLt rfl rfl (immOk_lt hwf) (.inl rfl) fun w ho ha _ _ hi => by
      rw [decode, ho, vField_eq ha, hi]; rfl
  case bvTsti a b n =>
    exact decode_encode_of_row rfl (by decide) a.isLt b.isLt rfl (immOk_lt hwf) (.inl rfl) fun w ho ha hb _ hi => by
      rw [decode, ho, xField_eq ha, vField_eq hb, hi]; rfl
  case bvSet a b | bvClr a b | bvShl a b =>
    exact decode_encode_of_row rfl (by decide) a.isLt b.isLt rfl (by decide) (.inr rfl) fun w ho ha hb _ _ => by
      rw [decode, ho, vField_eq ha, xField_eq hb]; rfl
  case bvLen a b =>
    exact decode_encode_of_row rfl (by decide) a.isLt b.isLt rfl (by decide) (.inr rfl) fun w ho ha hb _ _ => by
      rw [decode, ho, xField_eq ha, vField_eq hb]; rfl
  case wrGetb a b | ackIsrx a b =>
    exact decode_encode_of_row rfl (by decide) a.isLt b.isLt rfl (by decide) (.inr rfl) fun w ho ha hb _ _ => by
      rw [decode, ho, xField_eq ha, xField_eq hb]; rfl
  case bvTst a b c =>
    exact decode_encode_of_row rfl (by decide) a.isLt b.isLt c.isLt (by decide) (.inr rfl) fun w ho ha hb hc _ => by
      rw [decode, ho, xField_eq ha, vField_eq hb, xField_eq hc]; rfl
  case seqCmp a b c | seqDif a b c | seqAdd a b c | seqSub a b c =>
    exact decode_encode_of_row rfl (by decide) a.isLt b.isLt c.isLt (by decide) (.inr rfl) fun w ho ha hb hc _ => by
      rw [decode, ho, xField_eq ha, xField_eq hb, xField_eq hc]; rfl

/-- Settles O2: the command is the one the decoder's line builds, and the word obeys its format. -/
theorem encodeInvertsDecode : Obligations.EncodeInvertsDecode := by
  intro w i h
  obtain ⟨-, -, -, hwf, henc⟩ := decode_ok h
  exact ⟨hwf, henc⟩

/-- Settles O5: seven fixed words, evaluated. -/
theorem sampleWordsDecode : Obligations.SampleWordsDecode := by
  unfold Obligations.SampleWordsDecode
  decide

/-! ## The four kinds of illegal words (rule R75) -/

theorem field_one_eq_zero_iff (w : CmdWord) (lo : Nat) : field w lo 1 = 0 ↔ w.getLsbD lo = false := by
  rw [BitVec.getLsbD, Nat.testBit_eq_decide_div_mod_eq, decide_eq_false_iff_not, field]
  omega

theorem reservedSet_eq_false_iff (w : CmdWord) :
    reservedSet w = false ↔ ¬ (w.getLsbD 23 = true ∨ w.getLsbD 19 = true ∨ w.getLsbD 15 = true) := by
  simp only [reservedSet, Bool.or_eq_false_iff, bne_eq_false_iff_eq, field_one_eq_zero_iff, not_or, Bool.not_eq_true,
    and_assoc]

/-- A register field that fits: it is zero where it must be, and its bit 2 is where a vector register stands. -/
theorem useOf_fits_iff (unused vector : Prop) [Decidable unused] [Decidable vector] (w : CmdWord) (lo : Nat) :
    (useOf unused vector).Fits (field w lo 3) ↔
      ¬ (unused ∧ field w lo 3 ≠ 0) ∧ ¬ (vector ∧ w.getLsbD (lo + 2) = true) := by
  have hbit : w.getLsbD (lo + 2) = false ↔ field w lo 3 < 4 := by
    rw [← field_one_eq_zero_iff, field_bit2]; omega
  have hlt := field_lt w lo 3
  rw [Bool.eq_false_iff] at hbit
  unfold useOf
  split
  case isTrue => simp only [Use.Fits]; grind
  case isFalse => split <;> simp only [Use.Fits] <;> grind

/-- A word obeys the format of an opcode exactly when it is none of the kinds 2 to 4. -/
theorem admits_formatOf_iff (op : Nat) (w : CmdWord) :
    (formatOf op).Admits w ↔ ¬ (w.getLsbD 23 ∨ w.getLsbD 19 ∨ w.getLsbD 15) ∧
      ¬ (op ∈ opsWithoutA ∧ field w 20 3 ≠ 0 ∨ op ∉ opsWithB ∧ field w 16 3 ≠ 0 ∨
        op ∉ opsWithC ∧ field w 12 3 ≠ 0 ∨ op ∉ opsWithImm ∧ field w 0 12 ≠ 0) ∧
      ¬ (op ∈ opsWithVectorA ∧ w.getLsbD 22 ∨ op ∈ opsWithVectorB ∧ w.getLsbD 18) := by
  have ha := useOf_fits_iff (op ∈ opsWithoutA) (op ∈ opsWithVectorA) w 20
  have hb := useOf_fits_iff (op ∉ opsWithB) (op ∈ opsWithVectorB) w 16
  have hc := useOf_fits_iff (op ∉ opsWithC) False w 12
  have himm : decide (op ∈ opsWithImm) = true ∨ field w 0 12 = 0 ↔ ¬ (op ∉ opsWithImm ∧ field w 0 12 ≠ 0) := by
    rw [decide_eq_true_iff, not_and_or, not_not, not_not]
  simp only [not_or]
  constructor
  · intro h
    obtain ⟨hA, hVA⟩ := ha.1 h.a
    obtain ⟨hB, hVB⟩ := hb.1 h.b
    obtain ⟨hC, -⟩ := hc.1 h.c
    have hR := (reservedSet_eq_false_iff w).1 h.reserved
    simp only [not_or] at hR
    exact ⟨hR, ⟨hA, hB, hC, himm.1 h.imm⟩, hVA, hVB⟩
  · rintro ⟨hR, ⟨hA, hB, hC, hI⟩, hVA, hVB⟩
    refine ⟨(reservedSet_eq_false_iff w).2 ?_, ha.2 ⟨hA, hVA⟩, hb.2 ⟨hB, hVB⟩, hc.2 ⟨hC, fun h => h.1⟩, himm.2 hI⟩
    simpa only [not_or] using hR

theorem illegalByItems_iff (w : CmdWord) :
    IllegalByItems w ↔ ¬ (opOf w ∈ definedOps ∧ (formatOf (opOf w)).Admits w) := by
  rw [admits_formatOf_iff, not_and_or, not_and_or, not_and_or, not_not, not_not, not_not, IllegalByItems]
  by_cases hop : opOf w ∈ definedOps
  · simp only [hop, true_and]
  · simp only [hop, not_false_iff, true_or]

/-- A word is refused exactly when it spells no command. -/
theorem exists_decode_error_iff (w : CmdWord) : (∃ why, decode w = .error why) ↔ ¬ ∃ i, decode w = .ok i := by
  cases decode w <;> simp

/-- Settles O4: the decoder refuses the words that do not obey the format of a defined opcode, and these are the four
kinds; the step takes IllegalCommand (rule R203). -/
theorem illegalWordsAreTheFourKindsAndRaise : Obligations.IllegalWordsAreTheFourKindsAndRaise := by
  have hkinds (w : CmdWord) : (∃ why, decode w = .error why) ↔ IllegalByItems w := by
    rw [exists_decode_error_iff, exists_decode_ok_iff, illegalByItems_iff]
  refine ⟨hkinds, fun s t later hpending hillegal => ?_⟩
  obtain ⟨why, hdec⟩ := (hkinds t.cw).2 hillegal
  exact ⟨_, step_error hpending hdec, faultEntered_takeFault _ _⟩

/-! ## The rows of the opcode table (rule R76) -/

/-- The bits of a register field a row's mask covers under a use. -/
def Use.mask : Use → Nat
  | .unused => 7
  | .x => 0
  | .v => 4

/-- The row has the opcode in its `match` and, in its mask, the opcode, the reserved bits and what the opcode's format
requires to be zero. -/
def Row.Spells (row : Row) (op : Nat) : Prop :=
  row.pattern = wordOf op 0 0 0 0 ∧ opOf row.mask = 255 ∧
  (field row.mask 23 1 = 1 ∧ field row.mask 19 1 = 1 ∧ field row.mask 15 1 = 1) ∧
  field row.mask 20 3 = (formatOf op).a.mask ∧ field row.mask 16 3 = (formatOf op).b.mask ∧
  field row.mask 12 3 = (formatOf op).c.mask ∧ field row.mask 0 12 = bif (formatOf op).imm then 0 else 4095

theorem field_and (v w : CmdWord) (lo len : Nat) : field (v &&& w) lo len = field v lo len &&& field w lo len := by
  rw [field, field, field, BitVec.toNat_and, Nat.and_div_two_pow, Nat.and_mod_two_pow]

theorem Use.fits_iff_and_mask (u : Use) {n : Nat} (hn : n < 8) : u.Fits n ↔ n &&& u.mask = 0 := by
  cases u <;> simp only [Use.Fits, Use.mask] <;> revert n <;> decide

/-- A word with nothing but its opcode. -/
theorem eq_opcodeWord_iff (v : CmdWord) {op : Nat} (ho : op < 256) :
    v = wordOf op 0 0 0 0 ↔ opOf v = op ∧ reservedSet v = false ∧ field v 20 3 = 0 ∧ field v 16 3 = 0 ∧
      field v 12 3 = 0 ∧ field v 0 12 = 0 := by
  have h0 : 0 < 8 := by decide
  have hi : 0 < 4096 := by decide
  constructor
  · rintro rfl
    exact ⟨opOf_wordOf ho h0 h0 h0 hi, reservedSet_wordOf ho h0 h0 h0 hi, fieldA_wordOf ho h0 h0 h0 hi,
      fieldB_wordOf ho h0 h0 h0 hi, fieldC_wordOf ho h0 h0 h0 hi, fieldImm_wordOf ho h0 h0 h0 hi⟩
  · rintro ⟨rfl, hr, ha, hb, hc, himm⟩
    exact (eq_wordOf_fields hr).trans (by rw [ha, hb, hc, himm])

/-- A row is matched by the words of its opcode that obey the opcode's format. -/
theorem Row.Spells.matches_iff {row : Row} {op : Nat} (h : row.Spells op) (ho : op < 256) (w : CmdWord) :
    w &&& row.mask = row.pattern ↔ opOf w = op ∧ (formatOf op).Admits w := by
  obtain ⟨hpat, hop, ⟨h23, h19, h15⟩, ha, hb, hc, himm⟩ := h
  have hopcode : opOf (w &&& row.mask) = opOf w := by
    have hlt : opOf w < 2 ^ 8 := field_lt w 24 8
    rw [opOf, field_and]
    change opOf w &&& opOf row.mask = opOf w
    rw [hop]
    exact Nat.and_two_pow_sub_one_of_lt_two_pow hlt
  have hres : reservedSet (w &&& row.mask) = reservedSet w := by
    have hbit (lo : Nat) : field w lo 1 &&& 1 = field w lo 1 :=
      Nat.and_two_pow_sub_one_of_lt_two_pow (n := 1) (field_lt w lo 1)
    simp only [reservedSet, field_and, h23, h19, h15, hbit]
  have himm' : field w 0 12 &&& field row.mask 0 12 = 0 ↔ (formatOf op).imm = true ∨ field w 0 12 = 0 := by
    rw [himm]
    cases (formatOf op).imm
    case false =>
      have hall : field w 0 12 &&& 4095 = field w 0 12 :=
        Nat.and_two_pow_sub_one_of_lt_two_pow (n := 12) (field_lt w 0 12)
      simp [hall]
    case true => simp
  rw [hpat, eq_opcodeWord_iff _ ho, hopcode, hres, field_and, field_and, field_and, field_and, ha, hb, hc, himm',
    ← Use.fits_iff_and_mask _ (field_lt w 20 3), ← Use.fits_iff_and_mask _ (field_lt w 16 3),
    ← Use.fits_iff_and_mask _ (field_lt w 12 3)]
  exact and_congr_right fun _ => ⟨fun ⟨hr, ha, hb, hc, hi⟩ => ⟨hr, ha, hb, hc, hi⟩,
    fun ⟨hr, ha, hb, hc, hi⟩ => ⟨hr, ha, hb, hc, hi⟩⟩

/-- The opcodes of the table, row by row. -/
theorem opcodes_opcodeTable : opcodeTable.map (fun row => opOf row.pattern) = definedOps := by decide

theorem lt_of_mem_definedOps {op : Nat} (h : op ∈ definedOps) : op < 256 :=
  (by decide : ∀ op ∈ definedOps, op < 256) op h

theorem opOf_mem_definedOps {row : Row} (h : row ∈ opcodeTable) : opOf row.pattern ∈ definedOps :=
  opcodes_opcodeTable ▸ List.mem_map_of_mem h

/-- Every row of the table agrees with the format tables of rules R72 to R74. -/
theorem spells_of_mem {row : Row} (h : row ∈ opcodeTable) : row.Spells (opOf row.pattern) := by
  revert row
  unfold Row.Spells
  decide

theorem matches_iff_of_mem {row : Row} (h : row ∈ opcodeTable) (w : CmdWord) :
    w &&& row.mask = row.pattern ↔ opOf w = opOf row.pattern ∧ (formatOf (opOf row.pattern)).Admits w :=
  (spells_of_mem h).matches_iff (lt_of_mem_definedOps (opOf_mem_definedOps h)) w

/-- A row is found by its opcode. -/
theorem row_eq_of_opcode_eq {r₁ r₂ : Row} (h₁ : r₁ ∈ opcodeTable) (h₂ : r₂ ∈ opcodeTable)
    (h : opOf r₁.pattern = opOf r₂.pattern) : r₁ = r₂ :=
  List.inj_on_of_nodup_map (opcodes_opcodeTable ▸ (by decide : definedOps.Nodup)) h₁ h₂ h

/-- A row is found by its mnemonic. -/
theorem row_eq_of_mnemonic_eq {r₁ r₂ : Row} (h₁ : r₁ ∈ opcodeTable) (h₂ : r₂ ∈ opcodeTable)
    (h : r₁.mnemonic = r₂.mnemonic) : r₁ = r₂ :=
  List.inj_on_of_nodup_map (by decide : (opcodeTable.map Row.mnemonic).Nodup) h₁ h₂ h

/-- Every command has its row. -/
theorem exists_row (i : Instr) :
    ∃ row ∈ opcodeTable, row.mnemonic = i.mnemonic ∧ opOf row.pattern = OpcodeField.opcode i := by
  have hany : opcodeTable.any
      (fun row => decide (row.mnemonic = i.mnemonic ∧ opOf row.pattern = OpcodeField.opcode i)) = true := by
    cases i <;> rfl
  obtain ⟨row, hrow, h⟩ := List.any_eq_true.1 hany
  exact ⟨row, hrow, of_decide_eq_true h⟩

/-- A word that spells a command matches the command's row. -/
theorem exists_matching_row {w : CmdWord} {i : Instr} (h : decode w = .ok i) :
    ∃ row ∈ opcodeTable, row.mnemonic = i.mnemonic ∧ w &&& row.mask = row.pattern := by
  obtain ⟨-, hw, hopcode, -⟩ := decode_ok h
  obtain ⟨row, hrow, hmnemonic, hop⟩ := exists_row i
  rw [hopcode] at hop
  exact ⟨row, hrow, hmnemonic, (matches_iff_of_mem hrow w).2 ⟨hop.symm, hop ▸ hw⟩⟩

theorem row_eq_of_matches {r₁ r₂ : Row} {w : CmdWord} (h₁ : r₁ ∈ opcodeTable) (h₂ : r₂ ∈ opcodeTable)
    (hw₁ : w &&& r₁.mask = r₁.pattern) (hw₂ : w &&& r₂.mask = r₂.pattern) : r₁ = r₂ := by
  obtain ⟨hop₁, -⟩ := (matches_iff_of_mem h₁ w).1 hw₁
  obtain ⟨hop₂, -⟩ := (matches_iff_of_mem h₂ w).1 hw₂
  exact row_eq_of_opcode_eq h₁ h₂ (hop₁.symm.trans hop₂)

/-- A word that matches a row spells a command. -/
theorem exists_decode_ok_of_matches {row : Row} {w : CmdWord} (h : row ∈ opcodeTable)
    (hw : w &&& row.mask = row.pattern) : ∃ i, decode w = .ok i := by
  obtain ⟨hop, hadmits⟩ := (matches_iff_of_mem h w).1 hw
  exact exists_decode_ok (hop ▸ opOf_mem_definedOps h) (hop ▸ hadmits)

/-- Settles O3: a word that spells a command matches that command's row, and only one row can match. -/
theorem wordSpellsCommandIffRowMatches : Obligations.WordSpellsCommandIffRowMatches := by
  refine ⟨fun row hrow w => ⟨?spells, fun hw => ?matched⟩, by decide,
    fun w r₁ h₁ r₂ h₂ hw₁ hw₂ => row_eq_of_matches h₁ h₂ hw₁ hw₂, fun w hnone => ?unmatched⟩
  case spells =>
    rintro ⟨i, hdec, hmnemonic⟩
    obtain ⟨r, hr, hname, hw⟩ := exists_matching_row hdec
    cases row_eq_of_mnemonic_eq hr hrow (hname.trans hmnemonic)
    exact hw
  case matched =>
    obtain ⟨i, hdec⟩ := exists_decode_ok_of_matches hrow hw
    obtain ⟨r, hr, hname, hwr⟩ := exists_matching_row hdec
    cases row_eq_of_matches hr hrow hwr hw
    exact ⟨i, hdec, hname.symm⟩
  case unmatched =>
    rw [exists_decode_error_iff]
    rintro ⟨i, hdec⟩
    obtain ⟨row, hrow, -, hw⟩ := exists_matching_row hdec
    exact hnone row hrow hw

end Sys2Proof
end

section
/-! Spec file 30_encoding.md, the command port (rules R70, R200 and R239): every transaction is answered with one
response, what its data word is, and the status codes. -/

namespace Sys2Proof.Machine

open Sys2Proof

/-! ## Responses -/

/-- Fault entry gives one response, with the fault's code and `DOUT = 0`. -/
theorem responds_takeFault (k : FaultKind) (s : State) : Responds s (s.takeFault k) (.fault k) 0 :=
  ⟨rfl, rfl, rfl, rfl⟩

/-- Every command that reaches a next state gives one response: a fault with `DOUT = 0`, or OK with the command's data
word. -/
theorem exec_responds {i : Instr} {s t : State} (h : exec i s = .next t) :
    (∃ k, Responds s t (.fault k) 0) ∨ Responds s t .ok (s.doutOf i) := by
  rcases exec_next h with ⟨k, _, rfl⟩ | ⟨_, rfl⟩
  · exact .inl ⟨k, responds_takeFault k s⟩
  · exact .inr (responds_performed i s)

/-- Only `MOVO` has a data word other than 0 (rule R103). -/
theorem eq_movo_of_doutOf_ne_zero {i : Instr} {s : State} (h : s.doutOf i ≠ 0) :
    ∃ a, i = .movo a ∧ s.doutOf i = s.getX a := by
  cases i
  case movo a => exact ⟨a, rfl, rfl⟩
  all_goals exact absurd rfl h

/-- Settles O14: the response of a fault, and that of a performed command. -/
theorem oneResponseAndDoutOnlyFromMovo : Obligations.OneResponseAndDoutOnlyFromMovo := by
  intro i s t h
  rcases exec_responds h with ⟨k, hr⟩ | hr
  · exact ⟨.fault k, 0, hr, fun hd => absurd rfl hd⟩
  · refine ⟨.ok, s.doutOf i, hr, fun hd => ?_⟩
    obtain ⟨a, hi, hdout⟩ := eq_movo_of_doutOf_ne_zero hd
    exact ⟨a, hi, rfl, hdout⟩

/-- From a state of rule R28 a command answers: none of them stops (rule R239). -/
theorem exists_exec_responds {s : State} (h : s.Inv) (i : Instr) :
    ∃ t st dout, exec i s = .next t ∧ Responds s t st dout := by
  rcases exec_of_wpos_le h.wpos_le i with ⟨k, _, he⟩ | ⟨_, he⟩
  · exact ⟨_, _, _, he, responds_takeFault k s⟩
  · exact ⟨_, _, _, he, responds_performed i s⟩

/-- From a state of rule R28 a step with a transaction pending answers it in the state that has it on the port. -/
theorem exists_step_responds {s : State} {t : Transaction} {later : List Transaction} (h : s.Inv)
    (hpending : s.pending = t :: later) :
    ∃ s' st dout, step s = .next s' ∧ Responds (s.present t later) s' st dout := by
  cases hdec : decode t.cw with
  | ok i =>
    rw [step_ok hpending hdec]
    exact exists_exec_responds (h.present t later) i
  | error why => exact ⟨_, _, _, step_error hpending hdec, responds_takeFault _ _⟩

/-- Settles O8. -/
theorem everyTransactionIsAnswered : Obligations.EveryTransactionIsAnswered := by
  intro s t later h hpending
  obtain ⟨s', st, dout, hstep, hresponses, hcfg, -, hlater⟩ := exists_step_responds h hpending
  exact ⟨s', ⟨st, dout⟩, hstep, hlater, hcfg, hresponses⟩

theorem FaultKind.code_bounds (k : FaultKind) : 1 ≤ k.code ∧ k.code ≤ 4 := by
  cases k <;> decide

/-- A fault's `FSR` bit has the fault's code minus 1 as its index (rule R200). -/
theorem getLsbD_fsrBit (k : FaultKind) (j : Nat) : (fsrBit k).getLsbD j = decide (j + 1 = k.code) := by
  have hk := k.code_bounds
  rw [fsrBit, ← BitVec.twoPow_eq, BitVec.getLsbD_twoPow, ← Bool.decide_and, decide_eq_decide]
  omega

theorem toNat_code_fault (k : FaultKind) : (Status.code (.fault k)).toNat = k.code := by
  cases k <;> rfl

/-- Settles O15: the codes are evaluated; fault entry sets one bit of `FSR` and keeps the others. -/
theorem statusCodesAndFsrBits : Obligations.StatusCodesAndFsrBits := by
  refine ⟨rfl, rfl, rfl, rfl, rfl, fun st => ?codes, fun s k j => ?bits⟩
  case codes =>
    cases st with
    | ok => decide
    | fault k => cases k <;> decide
  case bits => rw [State.takeFault_fsr, setFsr, BitVec.getLsbD_or, getLsbD_fsrBit, toNat_code_fault]

end Sys2Proof.Machine
end

section
/-! Spec file 40_sys.md, the SYS commands (rules R100 to R106): what each one writes and leaves unchanged, and that
`MOVI` alone reads `DIN` and `MOVO` alone answers a data word. -/

namespace Sys2Proof.Machine

open Sys2Proof

/-! ## Being spelled and completing -/

/-- A well-formed command is spelled by the word its encoder builds. -/
theorem encodedAs_of_encode {op a b c imm : Nat} {i : Instr} (he : encode i = wordOf op a b c imm)
    (hwf : i.wf = true) : EncodedAs op a b c imm i := by
  rw [EncodedAs, ← he]
  exact decodeInvertsEncode i hwf

theorem Completes.imp {i : Instr} {s : State} {P Q : State → Prop} (h : Completes i s P) (hPQ : ∀ t, P t → Q t) :
    Completes i s Q := by
  obtain ⟨t, he, hr, hP⟩ := h
  exact ⟨t, he, hr, hPQ t hP⟩

/-- A command that ends by writing one general register. -/
theorem completes_setX {i : Instr} {s : State} {a : XReg} {w : Word} (he : exec i s = done (s.setX a w)) :
    Completes i s fun t => t.getX a = w ∧ OnlyX a s t :=
  completes_of_eq he rfl rfl rfl rfl ⟨s.getX_setX_self a w, onlyX_setX_answer s a w⟩

/-- Giving a response changes nothing of the block's state. -/
theorem noChange_answer (s : State) (st : Status) (d : Word) : NoChange s (s.answer st d) := NoChange.refl s

/-! ## `DIN` (rule R102) -/

/-- The state with another data word on the port. -/
def State.withDin (s : State) (d : Word) : State := { s with din := d }

theorem withDin_takeFault (s : State) (d : Word) (k : FaultKind) :
    (s.withDin d).takeFault k = (s.takeFault k).withDin d := rfl

theorem withDin_answer (s : State) (d : Word) (st : Status) (w : Word) :
    (s.withDin d).answer st w = (s.answer st w).withDin d := rfl

theorem faultOf_withDin (i : Instr) (s : State) (d : Word) : faultOf i (s.withDin d) = faultOf i s := by
  cases i <;> rfl

theorem doutOf_withDin (i : Instr) (s : State) (d : Word) : (s.withDin d).doutOf i = s.doutOf i := by
  cases i <;> rfl

theorem beyond_withDin (i : Instr) (s : State) (d : Word) : (s.withDin d).beyond i ↔ s.beyond i := by
  cases i <;> exact Iff.rfl

theorem acked_withDin (s : State) (d : Word) (q : SeqNo) : (s.withDin d).acked q = (s.acked q).withDin d := by
  unfold State.acked
  rw [apply_ite (State.withDin · d), apply_ite (State.withDin · d)]
  rfl

/-- What a command but `MOVI` does to the rest of the state does not depend on `DIN`. -/
theorem performed_withDin {i : Instr} (s : State) (d : Word) (hi : ∀ a, i ≠ .movi a) :
    (s.withDin d).performed i = (s.performed i).withDin d := by
  cases i
  case movi a => exact absurd rfl (hi a)
  case ackRx a => exact acked_withDin s d _
  all_goals rfl

/-- A command that reaches a next state does the same thing, the fault or the performing, from every state that gives it
the same fault and the same bytes to reach. -/
theorem exec_agrees_of_faultOf_eq {i : Instr} {s s' t : State} (he : exec i s = .next t) (hb : s'.beyond i ↔ s.beyond i)
    (hf : faultOf i s' = faultOf i s) :
    (∃ k, t = s.takeFault k ∧ exec i s' = .next (s'.takeFault k)) ∨
    (t = (s.performed i).answer .ok (s.doutOf i) ∧
      exec i s' = .next ((s'.performed i).answer .ok (s'.doutOf i))) := by
  have hnb : ¬ s'.beyond i := fun h => by cases (exec_of_beyond (hb.1 h)).symm.trans he
  obtain ⟨hraise, hperform⟩ := exec_of_not_beyond hnb
  rcases exec_next he with ⟨k, hk, ht⟩ | ⟨hn, ht⟩
  · exact .inl ⟨k, ht, hraise k (hf.trans hk)⟩
  · exact .inr ⟨ht, hperform (hf.trans hn)⟩

/-- With any other data word on the port a command but `MOVI` does the same. -/
theorem exec_withDin {i : Instr} {s t : State} (d : Word) (hi : ∀ a, i ≠ .movi a) (he : exec i s = .next t) :
    exec i (s.withDin d) = .next (t.withDin d) := by
  rcases exec_agrees_of_faultOf_eq he (beyond_withDin i s d) (faultOf_withDin i s d)
    with ⟨k, rfl, e⟩ | ⟨rfl, e⟩
  · rw [e, withDin_takeFault]
  · rw [e, performed_withDin s d hi, doutOf_withDin, withDin_answer]

/-- Settles O19: the write of the destination, and the independence of every other command from `DIN`. -/
theorem moviAloneLoadsDin : Obligations.MoviAloneLoadsDin :=
  ⟨fun _ _ => ⟨encodedAs_of_encode rfl rfl, completes_setX rfl⟩, fun _ _ _ d hi he => exec_withDin d hi he⟩

/-! ## `DOUT` (rule R103) -/

/-- Settles O20: the one response of a command determines its data word, and only `MOVO` gives one that is not 0. -/
theorem movoAloneAnswersDout : Obligations.MovoAloneAnswersDout := by
  refine ⟨fun a s => ⟨encodedAs_of_encode rfl rfl, _, rfl, responds_answer s .ok _, noChange_answer s .ok _⟩, ?_⟩
  intro i s t st dout he hresp hd
  obtain ⟨st', dout', ⟨hresp', -⟩, hmovo⟩ := oneResponseAndDoutOnlyFromMovo i s t he
  have hsame : [(⟨st, dout⟩ : Response)] = [⟨st', dout'⟩] := List.append_cancel_left (hresp.symm.trans hresp')
  cases hsame
  obtain ⟨a, hi, -⟩ := hmovo hd
  exact ⟨a, hi⟩

/-! ## The other SYS commands -/

/-- Settles O17. -/
theorem nopChangesNothingAndClrfOnlyFsr : Obligations.NopChangesNothingAndClrfOnlyFsr := by
  refine ⟨encodedAs_of_encode rfl rfl, encodedAs_of_encode rfl rfl, fun s => ⟨?nop, ?clrf⟩⟩
  case nop => exact completes_of_eq (u := s) rfl rfl rfl rfl rfl (noChange_answer s .ok 0)
  case clrf =>
    exact completes_of_eq (u := s.withFsr 0) rfl rfl rfl rfl rfl
      ⟨rfl, .refl s, .refl s, .refl s, .refl s, .refl s⟩

/-- Settles O18: an immediate of 12 bits is its own value in the 64-bit destination. -/
theorem liLoadsTheImmediate : Obligations.LiLoadsTheImmediate := by
  intro a imm s himm
  refine ⟨encodedAs_of_encode rfl (decide_eq_true himm), (completes_setX rfl).imp fun t ⟨hval, hframe⟩ => ⟨?_, hframe⟩⟩
  rw [hval, toNat_zext imm (by omega)]

/-- A bit vector of at most 64 bits keeps its bits when zero-extended; above them every bit is 0. -/
theorem getLsbD_zext_toNat {n : Nat} (f : BitVec n) (hn : n ≤ 64) (j : Nat) :
    (zext f.toNat).getLsbD j = if j < n then f.getLsbD j else false := by
  rw [getLsbD_zext, BitVec.testBit_toNat]
  split
  case isTrue hj => rw [decide_eq_true (by omega), Bool.true_and]
  case isFalse hj => rw [BitVec.getLsbD_of_ge f j (by omega), Bool.and_false]

/-- Settles O21. -/
theorem getfReadsFsr : Obligations.GetfReadsFsr := by
  intro a s
  refine ⟨encodedAs_of_encode rfl rfl, (completes_setX rfl).imp fun t ⟨hval, hframe⟩ => ⟨fun j => ?_, hframe⟩⟩
  rw [hval, getLsbD_zext_toNat s.fsr (by decide)]

/-- Settles O22: `SRST` leaves the reset state but for the host's side of the port, and what rule R29 says of the reset
state's fields (`resetValues`) does not look at that. -/
theorem srstGivesTheResetState : Obligations.SrstGivesTheResetState := by
  refine ⟨encodedAs_of_encode rfl rfl, fun s => ?_⟩
  obtain ⟨hx, hv, hwcap, hwpos, hwbuf, hrlen, hrpos, hrbuf, haw, hahwm, hawin, hfsr, -⟩ := resetValues s.cfg
  exact completes_of_eq (u := s.performed .srst) rfl rfl rfl rfl rfl
    ⟨hx, hv, hwcap, hwpos, hwbuf, hrlen, hrpos, hrbuf, haw, hahwm, hawin, hfsr, rfl⟩

end Sys2Proof.Machine
end

section
/-! Spec file 41_bitvector.md, the BV commands (rules R110 to R122): what each one does to its vector or destination
register and leaves unchanged, when it faults, and that shifts compose. -/

namespace Sys2Proof.Machine

open Sys2Proof

/-! ## The shapes of the BV commands -/

section Shapes

variable {i : Instr} {s : State} {a d : VReg} {x : XReg} {k n : Nat} {b : Bool}

/-- A command that ends by writing one vector register. -/
theorem completes_setV {bits : Bits} (he : exec i s = done (s.setV a bits)) :
    Completes i s fun t => t.getV a = bits ∧ OnlyV a s t :=
  completes_of_eq he rfl rfl rfl rfl ⟨s.getV_setV_self a bits, onlyV_setV_answer s a bits⟩

/-- A command that ends by writing an all-clear vector of capacity `n`. -/
theorem completes_clearVector (he : exec i s = done (s.setV a (zeros n))) :
    Completes i s fun t => t.getVN a = n ∧ (∀ j, bitAt (t.getV a) j = false) ∧ OnlyV a s t :=
  (completes_setV he).imp fun t ⟨hbits, hframe⟩ =>
    ⟨by rw [State.getVN, hbits, length_zeros], fun j => by rw [hbits, bitAt_zeros], hframe⟩

/-- Below the capacity `replaceBit` puts the bit at the index and keeps every other one. -/
theorem completes_replaceBit (he : exec i s = replaceBit a k b s) (hk : k < s.getVN a) :
    Completes i s (BitReplaced a k b s) := by
  have hdone : exec i s = done (s.setV a (setBitAt (s.getV a) k b)) := he.trans (if_neg (Nat.not_le.2 hk))
  refine (completes_setV hdone).imp fun t ⟨hbits, hframe⟩ => ⟨?capacity, ?bit, fun j hj => ?others, hframe⟩
  case capacity => rw [State.getVN, hbits, length_setBitAt, State.getVN]
  case bit => rw [hbits, bitAt_setBitAt _ _ _ _ hk, if_pos rfl]
  case others => rw [hbits, bitAt_setBitAt _ _ _ _ hk, if_neg hj]

theorem raises_replaceBit (he : exec i s = replaceBit a k b s) (hk : s.getVN a ≤ k) : Raises i s .operandError :=
  raises_of_eq (he.trans (if_pos hk))

/-- Below the capacity `testBit` gives the bit at the index as the number 0 or 1. -/
theorem completes_testBit (he : exec i s = testBit x d k s) (hk : k < s.getVN d) :
    Completes i s fun t => t.getX x = (if bitAt (s.getV d) k then 1 else 0) ∧ OnlyX x s t := by
  rw [← zextBit_eq]
  exact completes_setX (he.trans (if_neg (Nat.not_le.2 hk)))

theorem raises_testBit (he : exec i s = testBit x d k s) (hk : s.getVN d ≤ k) : Raises i s .operandError :=
  raises_of_eq (he.trans (if_pos hk))

/-- `shiftLeft` moves the bits up by any amount (rule R117). -/
theorem completes_shiftLeft (he : exec i s = shiftLeft a k s) : Completes i s (Shifted a k s) := by
  refine (completes_setV he).imp fun t ⟨hbits, hframe⟩ => ⟨?capacity, fun j hj => ?bits, hframe⟩
  case capacity => rw [State.getVN, hbits, length_shl, State.getVN]
  case bits =>
    have hlen : j < (s.getV a).length := hj
    simp only [hbits, bitAt_shl, hlen, true_and]

end Shapes

/-! ## What each command does (rules R110 to R120) -/

/-- Settles O23. -/
theorem bvNewCreatesAClearVector : Obligations.BvNewCreatesAClearVector := fun _ _ _ =>
  ⟨fun himm => encodedAs_of_encode rfl (decide_eq_true himm),
    fun hle => completes_clearVector (if_neg (Nat.not_lt.2 hle)),
    fun hlt => raises_of_eq (if_pos hlt)⟩

/-- Settles O24. -/
theorem bvSetiClriReplaceOneBit : Obligations.BvSetiClriReplaceOneBit := fun _ _ _ =>
  ⟨fun himm => ⟨encodedAs_of_encode rfl (decide_eq_true himm), encodedAs_of_encode rfl (decide_eq_true himm)⟩,
    fun hin => ⟨completes_replaceBit rfl hin, completes_replaceBit rfl hin⟩,
    fun hout => ⟨raises_replaceBit rfl hout, raises_replaceBit rfl hout⟩⟩

/-- Settles O25: the index is the whole register as a number, so the rule of `replaceBit` applies to it. -/
theorem bvSetClrReplaceOneBit : Obligations.BvSetClrReplaceOneBit := fun _ _ _ =>
  ⟨encodedAs_of_encode rfl rfl, encodedAs_of_encode rfl rfl,
    fun hin => ⟨completes_replaceBit rfl hin, completes_replaceBit rfl hin⟩,
    fun hout => ⟨raises_replaceBit rfl hout, raises_replaceBit rfl hout⟩⟩

/-- Settles O26: the index is read before the destination is written, so they may be one register. -/
theorem bvTestsReadOneBit : Obligations.BvTestsReadOneBit := by
  refine ⟨fun a b imm s => ⟨fun himm => ?_, completes_testBit rfl, raises_testBit rfl⟩,
    fun a b c s => ⟨?_, completes_testBit rfl, raises_testBit rfl⟩⟩
  · exact encodedAs_of_encode rfl (decide_eq_true himm)
  · exact encodedAs_of_encode rfl rfl

/-- Settles O27. -/
theorem bvShiftsMoveBitsUp : Obligations.BvShiftsMoveBitsUp := fun _ _ =>
  ⟨fun _ hk => encodedAs_of_encode rfl (decide_eq_true hk), fun _ => completes_shiftLeft rfl,
    fun _ => ⟨encodedAs_of_encode rfl rfl, completes_shiftLeft rfl⟩⟩

/-- In the states of rule R28 a capacity fits a general register: it is at most `VMAX`, which rule R6 bounds. -/
theorem State.Inv.getVN_lt {s : State} (h : s.Inv) (hvalid : s.cfg.Valid) (r : VReg) : s.getVN r < 2 ^ 64 := by
  have hvn := h.vn_le r
  unfold Config.Valid at hvalid
  omega

/-- Settles O28: `BV.CLRA` writes an all-clear vector of the old capacity; a capacity is its own value in 64 bits. -/
theorem bvClraClearsAndLenReadsTheCapacity : Obligations.BvClraClearsAndLenReadsTheCapacity := by
  refine ⟨fun a s => ⟨encodedAs_of_encode rfl rfl, completes_clearVector rfl⟩, fun a b s hinv hvalid => ?len⟩
  refine ⟨encodedAs_of_encode rfl rfl, (completes_setX rfl).imp fun t ⟨hval, hframe⟩ => ⟨?_, hframe⟩⟩
  rw [hval, toNat_zext _ (hinv.getVN_lt hvalid b)]

/-! ## Shifts compose (rule R122 (4)) -/

/-- Both sides take bit `j` from index `j - (k₁ + k₂)`; below `k₁ + k₂` one of the two shifts brings in a 0. -/
theorem shl_shl (t : Bits) (k₁ k₂ : Nat) : shl (shl t k₁) k₂ = shl t (k₁ + k₂) := by
  refine bits_ext (by simp only [length_shl]) fun j hj => ?_
  have hlen : j < t.length := by simpa only [length_shl] using hj
  have hlow : j - k₂ < t.length := by omega
  simp only [bitAt_shl, length_shl, hlen, hlow, true_and]
  by_cases hk : k₁ + k₂ ≤ j
  · rw [if_pos (by omega), if_pos (by omega), if_pos hk, Nat.sub_sub, Nat.add_comm k₂]
  · rw [if_neg hk]
    by_cases hk₂ : k₂ ≤ j
    · rw [if_pos hk₂, if_neg (by omega)]
    · rw [if_neg hk₂]

theorem getV_of_exec_bvShli {a : VReg} {k : Nat} {s t : State} (he : exec (.bvShli a k) s = .next t) :
    t.getV a = shl (s.getV a) k := by
  rw [shiftLeft_next he, State.getV_answer, State.getV_setV_self]

/-- Settles O29. -/
theorem shiftsCompose : Obligations.ShiftsCompose := by
  intro a k₁ k₂ s t₁ t₂ t h₁ h₂ h
  rw [getV_of_exec_bvShli h₂, getV_of_exec_bvShli h₁, getV_of_exec_bvShli h, shl_shl]

/-! ## Capacities and other vectors (rule R122 (6) and (7)) -/

/-- A vector replaced by one of its own capacity: every capacity is kept. -/
theorem getVN_setV_of_length_eq {s : State} {a : VReg} {bits : Bits} (hlen : bits.length = s.getVN a) (r : VReg) :
    (s.setV a bits).getVN r = s.getVN r := by
  by_cases hr : r = a
  · rw [hr, State.getVN_setV_self, hlen]
  · exact s.getVN_setV_of_ne a r bits hr

/-- A BV command other than `BV.NEW` that raises nothing writes no vector, or one of the old capacity. -/
theorem performed_bv_getVN {i : Instr} (s : State) (hu : i.unit = 1) (hnew : ∀ a n, i ≠ .bvNew a n) (r : VReg) :
    (s.performed i).getVN r = s.getVN r := by
  cases i
  case bvNew a n => exact absurd rfl (hnew a n)
  case bvSeti | bvClri | bvSet | bvClr => exact getVN_setV_of_length_eq (length_setBitAt _ _ _) r
  case bvShli | bvShl => exact getVN_setV_of_length_eq (length_shl _ _) r
  case bvClra => exact getVN_setV_of_length_eq (length_zeros _) r
  case bvTsti | bvTst | bvLen => rfl
  all_goals exact absurd hu (by simp [Instr.unit])

/-- A command that names a destination vector and raises nothing replaces that vector and no other. -/
theorem exists_performed_v_eq_setV {i : Instr} {a : VReg} (s : State) (hd : i.vDest = some a) :
    ∃ bits, (s.performed i).v = (s.setV a bits).v := by
  cases i
  case bvNew | bvSeti | bvClri | bvSet | bvClr | bvShli | bvShl | bvClra | rdV | ackWin => cases hd; exact ⟨_, rfl⟩
  all_goals cases hd

/-- A command but `SRST` that raises nothing keeps the vectors its Vd field does not name. -/
theorem performed_getV_of_vDest_ne {i : Instr} {r : VReg} (s : State) (hsrst : i ≠ .srst) (hd : i.vDest ≠ some r) :
    (s.performed i).getV r = s.getV r := by
  cases hdest : i.vDest with
  | none => exact performed_sameV s hdest hsrst r
  | some a =>
    obtain ⟨bits, hv⟩ := exists_performed_v_eq_setV s hdest
    have hr : r ≠ a := fun e => hd (by rw [hdest, e])
    calc (s.performed i).getV r = (s.setV a bits).getV r := by rw [State.getV, hv, State.getV]
      _ = s.getV r := s.getV_setV_of_ne a r bits hr

/-- Settles O30: a fault keeps every vector; a performed BV command by the two rules above. -/
theorem bvCommandsKeepCapacitiesAndOtherVectors : Obligations.BvCommandsKeepCapacitiesAndOtherVectors := by
  intro i s t hu he
  have hsrst : i ≠ .srst := ne_srst_of_unit (by omega)
  rcases exec_next he with ⟨k, _, rfl⟩ | ⟨_, rfl⟩
  · exact ⟨fun _ r => s.getVN_takeFault k r, fun r _ => s.getV_takeFault k r⟩
  · exact ⟨fun hnew r => performed_bv_getVN s hu hnew r, fun r hd => performed_getV_of_vDest_ne s hsrst hd⟩

end Sys2Proof.Machine
end

section
/-! Spec file 42_writer.md, the WR commands (rules R130 to R144): what each one does to the writer or its destination
register and leaves unchanged, when it faults, that an integer write splits into halves, and that the writer only
appends. Rule R53 is settled with spec file 20_memory.md above. -/

namespace Sys2Proof.Machine

open Sys2Proof

/-! ## The construction (rule R131) -/

/-- Settles O31: an empty buffer space reads 0 everywhere. -/
theorem wrInitConstructsTheWriter : Obligations.WrInitConstructsTheWriter := fun a s =>
  ⟨encodedAs_of_encode rfl rfl,
    fun hle => completes_of_eq (u := s.performed (.wrInit a)) (if_neg (Nat.not_lt.2 hle)) rfl rfl rfl rfl
      ⟨rfl, rfl, Memory.read_nil, .refl s, .refl s, .refl s, .refl s, rfl⟩,
    fun hlt => raises_of_eq (if_pos hlt)⟩

/-! ## Writes of a bit run (rules R130, R132 to R136 and R138) -/

section Runs

variable {i : Instr} {s : State} {run : Bits}

/-- A run that fits is appended bit by bit. -/
theorem completes_writeBits {n : Nat} {f : Nat → Bool} (he : exec i s = writeBits run s) (hlen : run.length = n)
    (hbits : ∀ j, j < n → run.getD j false = f j) (hfit : s.wpos + n ≤ 8 * s.wcap) :
    Completes i s (Appended n f s) := by
  subst hlen
  exact completes_of_eq (he.trans (writeBits_fits hfit)) rfl rfl rfl rfl (appended_spec s run f hbits)

theorem raises_writeBits (he : exec i s = writeBits run s) (hfull : 8 * s.wcap < s.wpos + run.length) :
    Raises i s .capacityError :=
  raises_of_eq (he.trans (writeBits_full hfull))

/-- A command that writes the low `n` bits of a word: it appends them, or faults when they do not fit. -/
theorem lowBitsWrite_spec {n : Nat} {w : Word} (he : exec i s = writeBits (lowBits n w) s) :
    (s.wpos + n ≤ 8 * s.wcap → Completes i s (Appended n (fun j => w.getLsbD j) s)) ∧
    (8 * s.wcap < s.wpos + n → Raises i s .capacityError) := by
  refine ⟨completes_writeBits he (length_lowBits n w) fun j hj => ?_, fun hfull => raises_writeBits he ?_⟩
  · rw [getD_lowBits, if_pos hj]
  · rwa [length_lowBits]

end Runs

/-- Settles O32. -/
theorem integerWritesAppendLowBits : Obligations.IntegerWritesAppendLowBits := by
  intro a s
  simp only [List.forall_mem_cons]
  exact ⟨⟨encodedAs_of_encode rfl rfl, lowBitsWrite_spec rfl⟩, ⟨encodedAs_of_encode rfl rfl, lowBitsWrite_spec rfl⟩,
    ⟨encodedAs_of_encode rfl rfl, lowBitsWrite_spec rfl⟩, ⟨encodedAs_of_encode rfl rfl, lowBitsWrite_spec rfl⟩,
    ⟨encodedAs_of_encode rfl rfl, lowBitsWrite_spec rfl⟩, nofun⟩

/-- Settles O33. -/
theorem vectorWriteAppendsAllBits : Obligations.VectorWriteAppendsAllBits := fun _ _ =>
  ⟨encodedAs_of_encode rfl rfl, completes_writeBits rfl rfl fun _ _ => rfl, raises_writeBits rfl⟩

/-! ## Padding (rule R137) -/

/-- `WR.PAD` appends the zero bits up to the next byte boundary. -/
theorem performed_wrPad (s : State) :
    s.performed .wrPad = s.appended (zeros (8 * ceil8 s.wpos - s.wpos)) := by
  have hend : s.wpos + (zeros (8 * ceil8 s.wpos - s.wpos)).length = 8 * ceil8 s.wpos := by
    rw [length_zeros, Nat.add_sub_cancel' (le_ceil8 s.wpos)]
  rw [State.appended, hend]
  rfl

/-- In the states of rule R28 the zero bits fit, so `WR.PAD` completes. -/
theorem completes_wrPad {s : State} (h : s.wpos ≤ 8 * s.wcap) :
    Completes .wrPad s (Appended (8 * ceil8 s.wpos - s.wpos) (fun _ => false) s) := by
  have he : exec .wrPad s = done (s.performed .wrPad) :=
    (exec_of_not_beyond (not_beyond_of_wpos_le h .wrPad)).2 rfl
  rw [performed_wrPad] at he
  have hspec := appended_spec s (zeros (8 * ceil8 s.wpos - s.wpos)) (fun _ => false) fun j _ => getD_zeros _ j
  rw [length_zeros] at hspec
  exact completes_of_eq he rfl rfl rfl rfl hspec

/-- Settles O34: the appended zero bits end at the boundary, and all of them lie in the byte of the old position. -/
theorem wrPadZeroFillsToTheBoundary : Obligations.WrPadZeroFillsToTheBoundary := by
  refine ⟨encodedAs_of_encode rfl rfl, fun s h => (completes_wrPad h).imp ?_⟩
  rintro t ⟨hcap, hpos, hbits, hbytes, hframe⟩
  unfold ceil8 at hpos hbits hbytes
  refine ⟨by omega, by omega, by omega, hcap, fun p => ?_, fun q hq => hbytes q (by omega), hframe⟩
  rw [hbits, hpos]

/-! ## Reading the writer (rules R139 to R142) -/

/-- In the states of rule R28 the position fits a general register: it is at most `8*BUFMAX`, which rule R6 bounds. -/
theorem State.Inv.wpos_lt {s : State} (h : s.Inv) (hvalid : s.cfg.Valid) : s.wpos < 2 ^ 64 := by
  have hpos := h.wpos_le
  have hcap := h.wcap_le
  unfold Config.Valid at hvalid
  omega

@[simp] theorem State.length_getBytes (s : State) : s.getBytes.length = ceil8 s.wpos := by
  rw [State.getBytes, List.length_map, List.length_range]

/-- Byte `k` of `GetBytes()` is byte `k` of `WBUF` (rule R141). -/
theorem State.getElem?_getBytes {s : State} {k : Nat} (h : k < ceil8 s.wpos) :
    s.getBytes[k]? = some (Memory.read s.wbuf k) := by
  rw [State.getBytes, List.getElem?_map, List.getElem?_range h, Option.map_some]

/-- Settles O35. -/
theorem wrPosAndLenReadThePosition : Obligations.WrPosAndLenReadThePosition := by
  intro a s hinv hvalid
  have hpos : s.wpos < 2 ^ 64 := hinv.wpos_lt hvalid
  have hlen : ceil8 s.wpos < 2 ^ 64 := by unfold ceil8; omega
  refine ⟨encodedAs_of_encode rfl rfl, encodedAs_of_encode rfl rfl,
    (completes_setX rfl).imp fun t ⟨hval, hframe⟩ => ⟨?pos, hframe⟩,
    (completes_setX rfl).imp fun t ⟨hval, hframe⟩ => ⟨?len, ?bytes, hframe⟩⟩
  case pos => rw [hval, toNat_zext _ hpos]
  case len => rw [hval, toNat_zext _ hlen, ceil8]
  case bytes => rw [hval, toNat_zext _ hlen, State.length_getBytes]

/-- Settles O36: an index below the length of `GetBytes()` is below the capacity, so its byte exists. -/
theorem wrGetbReadsAByteOfGetBytes : Obligations.WrGetbReadsAByteOfGetBytes := by
  intro a b s h
  refine ⟨encodedAs_of_encode rfl rfl, fun hin => ?_, fun hout => raises_of_eq (if_pos hout)⟩
  have hcap : (s.getX b).toNat < s.wcap := Nat.lt_of_lt_of_le hin (ceil8_le_of_le h)
  have he : exec (.wrGetb a b) s = done (s.performed (.wrGetb a b)) :=
    (if_neg (Nat.not_le.2 hin)).trans (if_neg (Nat.not_le.2 hcap))
  refine (completes_setX he).imp fun t ⟨hval, hframe⟩ => ⟨?_, State.getElem?_getBytes hin, hframe⟩
  rw [hval, toNat_zext _ (by omega)]

/-! ## An integer write is the writes of its halves (rule R144 (3)) -/

/-- Writing a run whole or in two parts gives the same buffer and position, when the whole run fits. -/
theorem writeBits_append {t u : Bits} {s s' s₁ s₂ : State} (hfit : s.wpos + (t ++ u).length ≤ 8 * s.wcap)
    (h : writeBits (t ++ u) s = .next s') (h₁ : writeBits t s = .next s₁) (h₂ : writeBits u s₁ = .next s₂) :
    s₂.wpos = s'.wpos ∧ s₂.wbuf = s'.wbuf := by
  rw [writeBits_fits hfit] at h
  rw [List.length_append] at hfit
  rw [writeBits_fits (by omega)] at h₁
  cases h
  cases h₁
  rw [writeBits_fits (show s.wpos + t.length + u.length ≤ 8 * s.wcap by omega)] at h₂
  cases h₂
  refine ⟨?_, (Memory.writeRun_append t u s.wbuf s.wpos).symm⟩
  show s.wpos + t.length + u.length = s.wpos + (t ++ u).length
  rw [List.length_append, Nat.add_assoc]

/-- The low `n + m` bits of a word are its low `n` bits and then the next `m`. -/
theorem lowBits_add {n m : Nat} {w lo hi : Word} (hlo : ∀ j, j < n → lo.getLsbD j = w.getLsbD j)
    (hhi : ∀ j, j < m → hi.getLsbD j = w.getLsbD (n + j)) : lowBits (n + m) w = lowBits n lo ++ lowBits m hi := by
  have hlow : lowBits n lo = (List.range n).map w.getLsbD :=
    List.map_congr_left fun j hj => hlo j (List.mem_range.1 hj)
  have hhigh : lowBits m hi = (List.range m).map fun j => w.getLsbD (n + j) :=
    List.map_congr_left fun j hj => hhi j (List.mem_range.1 hj)
  rw [hlow, hhigh, lowBits, List.range_add, List.map_append, List.map_map]
  rfl

theorem getX_of_writeBits {t : Bits} {s s' : State} (h : writeBits t s = .next s') (r : XReg) :
    s'.getX r = s.getX r := by
  rcases writeBits_next h with ⟨_, rfl⟩ | ⟨_, rfl⟩ <;> rfl

/-- A command that writes the low `2*n` bits of a word against two that write its halves. -/
theorem lowBitsWrite_halves {n : Nat} {w lo : Word} {hi : XReg} {i iLo iHi : Instr} {s t t₁ t₂ : State}
    (he : exec i s = writeBits (lowBits (2 * n) w) s) (heLo : exec iLo s = writeBits (lowBits n lo) s)
    (heHi : exec iHi t₁ = writeBits (lowBits n (t₁.getX hi)) t₁)
    (hlo : ∀ j, j < n → lo.getLsbD j = w.getLsbD j) (hhi : ∀ j, j < n → (s.getX hi).getLsbD j = w.getLsbD (n + j))
    (hfit : s.wpos + 2 * n ≤ 8 * s.wcap) (h : exec i s = .next t) (h₁ : exec iLo s = .next t₁)
    (h₂ : exec iHi t₁ = .next t₂) : t₂.wpos = t.wpos ∧ ∀ q, Memory.read t₂.wbuf q = Memory.read t.wbuf q := by
  rw [he] at h
  rw [heLo] at h₁
  rw [heHi, getX_of_writeBits h₁] at h₂
  have hsplit : lowBits (2 * n) w = lowBits n lo ++ lowBits n (s.getX hi) := by
    rw [Nat.two_mul, lowBits_add hlo hhi]
  rw [hsplit] at h
  have hlen : (lowBits n lo ++ lowBits n (s.getX hi)).length = 2 * n := by rw [← hsplit, length_lowBits]
  obtain ⟨hpos, hbuf⟩ := writeBits_append (by rwa [hlen]) h h₁ h₂
  exact ⟨hpos, fun q => by rw [hbuf]⟩

/-- Settles O38: the three commands write the low `2*8`, `2*16` and `2*32` bits. -/
theorem integerWritesSplitIntoHalves : Obligations.IntegerWritesSplitIntoHalves := by
  intro a lo hi s t t₁ t₂
  simp only [List.forall_mem_cons]
  exact ⟨lowBitsWrite_halves rfl rfl rfl, lowBitsWrite_halves rfl rfl rfl, lowBitsWrite_halves rfl rfl rfl,
    List.forall_mem_nil _⟩

/-! ## The writer only appends (rule R144 (1) and (2)) -/

/-- The writer of `t` is that of `s` with a run, perhaps an empty one, appended. -/
def WriterAppended (s t : State) : Prop :=
  ∃ run, t.wcap = s.wcap ∧ t.wpos = s.wpos + run.length ∧ t.wbuf = Memory.writeRun s.wbuf s.wpos run

theorem writerAppended_appended (s : State) (run : Bits) : WriterAppended s (s.appended run) := ⟨run, rfl, rfl, rfl⟩

theorem WriterAppended.refl (s : State) : WriterAppended s s := ⟨[], rfl, rfl, rfl⟩

/-- A WR command other than `WR.INIT` that raises nothing appends a run or leaves the writer. -/
theorem performed_writerAppended {i : Instr} (s : State) (hu : i.unit = 2) (hinit : ∀ a, i ≠ .wrInit a) :
    WriterAppended s (s.performed i) := by
  cases i
  case wrInit a => exact absurd rfl (hinit a)
  case wrBit | wrU8 | wrU16 | wrU32 | wrU64 | wrV => exact writerAppended_appended s _
  case wrPad => rw [performed_wrPad]; exact writerAppended_appended s _
  case wrPos | wrLen | wrGetb => exact WriterAppended.refl s
  all_goals exact absurd hu (by simp [Instr.unit])

/-- An appended run starts at the old position, so it replaces no bit below it. -/
theorem WriterAppended.keeps_below {s t : State} (h : WriterAppended s t) :
    t.wcap = s.wcap ∧ s.wpos ≤ t.wpos ∧ ∀ p, p < s.wpos → Memory.bit t.wbuf p = Memory.bit s.wbuf p := by
  obtain ⟨run, hcap, hpos, hbuf⟩ := h
  refine ⟨hcap, by omega, fun p hp => ?_⟩
  rw [hbuf, Memory.bit_writeRun, if_neg (by omega)]

/-- Settles O39: a fault leaves the writer, and so does a response. -/
theorem writerOnlyAppends : Obligations.WriterOnlyAppends := fun _ s _ hu hinit he =>
  WriterAppended.keeps_below <|
    of_exec_next he (fun _ _ => WriterAppended.refl s) fun _ => performed_writerAppended s hu hinit

end Sys2Proof.Machine
end

section
/-! Spec file 43_reader.md, the RD commands (rules R150 to R166): how the input is built, what each read takes from it
and leaves unchanged, when it faults, and that what a writer wrote a reader reads back. -/

namespace Sys2Proof.Machine

open Sys2Proof

/-! ## Building the input (rules R151 to R153) -/

/-- Settles O40: `RD.INIT` leaves an empty input, and `RD.PUTB` writes the one byte at the old length. -/
theorem rdInitAndPutbBuildTheInput : Obligations.RdInitAndPutbBuildTheInput := by
  refine ⟨encodedAs_of_encode rfl rfl, fun s => ?init, fun a s =>
    ⟨encodedAs_of_encode rfl rfl, fun hroom => ?putb, fun hfull => raises_of_eq (if_pos hfull)⟩⟩
  case init =>
    exact completes_of_eq (u := s.performed .rdInit) rfl rfl rfl rfl rfl
      ⟨rfl, rfl, rfl, .refl s, .refl s, .refl s, .refl s, rfl⟩
  case putb =>
    have he : exec (.rdPutb a) s = done (s.performed (.rdPutb a)) := if_neg (Nat.not_le.2 hroom)
    exact completes_of_eq he rfl rfl rfl rfl
      ⟨rfl, rfl, Memory.read_write_self _ _ _, fun q hq => Memory.read_write_of_ne _ _ hq,
        .refl s, .refl s, .refl s, .refl s, rfl⟩

/-- Settles O41: the bytes taken are those below the length of `GetBytes()`, and all of them exist. -/
theorem rdLdwCopiesGetBytes : Obligations.RdLdwCopiesGetBytes := by
  refine ⟨encodedAs_of_encode rfl rfl, fun s h => ?_⟩
  have he : exec .rdLdw s = done (s.performed .rdLdw) :=
    (exec_of_not_beyond (not_beyond_of_wpos_le h .rdLdw)).2 rfl
  refine completes_of_eq he rfl rfl rfl rfl
    ⟨rfl, rfl, fun q (hq : q < ceil8 s.wpos) => ?copy, fun c hc => (Memory.mem_take hc).2,
      .refl s, .refl s, .refl s, .refl s, rfl⟩
  case copy =>
    show s.getBytes[q]? = some (Memory.read (Memory.take s.wbuf (ceil8 s.wpos)) q)
    rw [State.getElem?_getBytes hq, Memory.read_take, if_pos hq]

/-! ## Reads of a bit run (rules R150 and R154 to R161) -/

@[simp] theorem State.length_run (s : State) (n : Nat) : (s.run n).length = n := Memory.length_readRun _ _ _

/-- Bit `j` of the run read is the bit at position `RPOS + j` (rule R150). -/
theorem State.getD_run (s : State) {n j : Nat} (hj : j < n) :
    (s.run n).getD j false = Memory.bit s.rbuf (s.rpos + j) := Memory.getD_readRun _ _ _ _ hj

section Reads

variable {i : Instr} {s : State} {n : Nat} {d : XReg} {a : VReg}

/-- A command that reads a run which is there into a general register. -/
theorem completes_readBits_setX {f : Bits → Word} (he : exec i s = readBits n (fun t s' => s'.setX d (f t)) s)
    (hthere : s.rpos + n ≤ 8 * s.rlen) :
    Completes i s fun t => t.getX d = f (s.run n) ∧ Consumed n s t ∧ OnlyReaderAndX d s t :=
  completes_of_eq (u := (s.consumed n).setX d (f (s.run n))) (he.trans (readBits_there hthere)) rfl rfl rfl rfl
    ⟨State.getX_setX_self _ _ _, ⟨rfl, .refl s⟩, fun _ hr => State.getX_setX_of_ne _ _ _ _ hr,
      .refl s, .refl s, .refl s, rfl⟩

/-- A command that reads a run which is there into a vector register. -/
theorem completes_readBits_setV (he : exec i s = readBits n (fun t s' => s'.setV a t) s)
    (hthere : s.rpos + n ≤ 8 * s.rlen) :
    Completes i s fun t => t.getV a = s.run n ∧ Consumed n s t ∧ OnlyReaderAndV a s t :=
  completes_of_eq (u := (s.consumed n).setV a (s.run n)) (he.trans (readBits_there hthere)) rfl rfl rfl rfl
    ⟨State.getV_setV_self _ _ _, ⟨rfl, .refl s⟩, fun _ hr => State.getV_setV_of_ne _ _ _ _ hr,
      .refl s, .refl s, .refl s, rfl⟩

theorem raises_readBits {use : Bits → State → State} (he : exec i s = readBits n use s)
    (hshort : 8 * s.rlen < s.rpos + n) : Raises i s .formatError :=
  raises_of_eq (he.trans (readBits_short hshort))

/-- A zero-extending read of at most 64 bits: it takes them, or faults when they are not there. -/
theorem readUnsigned_spec (he : exec i s = readUnsigned n d s) (hn : n ≤ 64) :
    (s.rpos + n ≤ 8 * s.rlen → Completes i s fun t =>
      (∀ j, (t.getX d).getLsbD j = if j < n then Memory.bit s.rbuf (s.rpos + j) else false) ∧
      Consumed n s t ∧ OnlyReaderAndX d s t) ∧
    (8 * s.rlen < s.rpos + n → Raises i s .formatError) := by
  refine ⟨fun hthere => (completes_readBits_setX he hthere).imp ?_, raises_readBits he⟩
  rintro t ⟨hval, hframe⟩
  refine ⟨fun j => ?_, hframe⟩
  rw [hval, getLsbD_zext_ofBits _ _ (by rwa [State.length_run])]
  split
  case isTrue hj => exact s.getD_run hj
  case isFalse hj => exact getD_of_length_le _ _ (by rw [State.length_run]; omega)

/-- A sign-extending read: it takes the bits, or faults when they are not there. -/
theorem readSigned_spec (he : exec i s = readSigned n d s) (hn : 0 < n) :
    (s.rpos + n ≤ 8 * s.rlen → Completes i s fun t =>
      (∀ j, j < 64 → (t.getX d).getLsbD j =
        if j < n then Memory.bit s.rbuf (s.rpos + j) else Memory.bit s.rbuf (s.rpos + n - 1)) ∧
      Consumed n s t ∧ OnlyReaderAndX d s t) ∧
    (8 * s.rlen < s.rpos + n → Raises i s .formatError) := by
  refine ⟨fun hthere => (completes_readBits_setX he hthere).imp ?_, raises_readBits he⟩
  rintro t ⟨hval, hframe⟩
  refine ⟨fun j hj64 => ?_, hframe⟩
  rw [hval, getLsbD_sext_ofBits _ _ _ hn hj64]
  split
  case isTrue hj => exact s.getD_run hj
  case isFalse => rw [s.getD_run (Nat.sub_lt hn Nat.one_pos), Nat.add_sub_assoc hn]

end Reads

/-- Settles O42. -/
theorem unsignedReadsZeroExtend : Obligations.UnsignedReadsZeroExtend := by
  intro d s
  simp only [List.forall_mem_cons]
  exact ⟨⟨encodedAs_of_encode rfl rfl, readUnsigned_spec rfl (by decide)⟩,
    ⟨encodedAs_of_encode rfl rfl, readUnsigned_spec rfl (by decide)⟩,
    ⟨encodedAs_of_encode rfl rfl, readUnsigned_spec rfl (by decide)⟩,
    ⟨encodedAs_of_encode rfl rfl, readUnsigned_spec rfl (by decide)⟩,
    ⟨encodedAs_of_encode rfl rfl, readUnsigned_spec rfl (by decide)⟩, List.forall_mem_nil _⟩

/-- Settles O43. -/
theorem signedReadsSignExtend : Obligations.SignedReadsSignExtend := by
  intro d s
  simp only [List.forall_mem_cons]
  exact ⟨⟨encodedAs_of_encode rfl rfl, readSigned_spec rfl (by decide)⟩,
    ⟨encodedAs_of_encode rfl rfl, readSigned_spec rfl (by decide)⟩, List.forall_mem_nil _⟩

/-- Up to `VMAX` bits `RD.V` is a read of a bit run (rule R161). -/
theorem exec_rdV_of_le {d : VReg} {n : Nat} {s : State} (hn : n ≤ s.cfg.vmax) :
    exec (.rdV d n) s = readBits n (fun t s' => s'.setV d t) s := if_neg (Nat.not_lt.2 hn)

/-- Settles O44: the limit is tested first; below it the command is the read step. -/
theorem vectorReadTakesTheNextBits : Obligations.VectorReadTakesTheNextBits := by
  refine fun d n s => ⟨fun hn => encodedAs_of_encode rfl (decide_eq_true hn), fun hn hthere => ?read,
    fun hlarge => raises_of_eq (if_pos hlarge), fun hn => raises_readBits (exec_rdV_of_le hn)⟩
  refine (completes_readBits_setV (exec_rdV_of_le hn) hthere).imp ?_
  rintro t ⟨hval, hframe⟩
  refine ⟨?capacity, fun j hj => ?bits, hframe⟩
  case capacity => rw [State.getVN, hval, State.length_run]
  case bits => rw [hval, bitAt, s.getD_run hj]

/-! ## Padding, position and length (rules R162 to R164) -/

/-- In the states of rule R28 the reader's length and position fit a general register: rule R6 bounds `BUFMAX`. -/
theorem State.Inv.reader_lt {s : State} (h : s.Inv) (hvalid : s.cfg.Valid) : s.rpos < 2 ^ 64 ∧ s.rlen < 2 ^ 64 := by
  have hpos := h.rpos_le
  have hlen := h.rlen_le
  unfold Config.Valid at hvalid
  omega

/-- Settles O45. -/
theorem rdPadMovesAndPosLenReadThePosition : Obligations.RdPadMovesAndPosLenReadThePosition := by
  refine ⟨encodedAs_of_encode rfl rfl, fun s => ?pad, fun a s hinv hvalid => ?read⟩
  case pad =>
    have hlt : 8 * ceil8 s.rpos < s.rpos + 8 := by unfold ceil8; omega
    exact completes_of_eq (u := s.performed .rdPad) rfl rfl rfl rfl rfl
      ⟨Nat.mul_mod_right 8 _, le_ceil8 s.rpos, hlt, .refl s, .refl s, .refl s, .refl s, .refl s, rfl⟩
  case read =>
    obtain ⟨hpos, hlen⟩ := hinv.reader_lt hvalid
    exact ⟨encodedAs_of_encode rfl rfl, encodedAs_of_encode rfl rfl,
      (completes_setX rfl).imp fun t ⟨hval, hframe⟩ => ⟨by rw [hval, toNat_zext _ hpos], hframe⟩,
      (completes_setX rfl).imp fun t ⟨hval, hframe⟩ => ⟨by rw [hval, toNat_zext _ hlen], hframe⟩⟩

/-! ## What several commands in turn keep -/

/-- What each of the commands keeps, performing them in turn keeps. -/
theorem Performs.keeps {P : State → Prop} {is : List Instr} {s t : State} (h : Performs is s t)
    (hstep : ∀ i ∈ is, ∀ s' t', exec i s' = .next t' → P s' → P t') (hs : P s) : P t := by
  induction is generalizing s with
  | nil => cases h; exact hs
  | cons i is ih =>
    obtain ⟨u, he, hrest⟩ := h
    exact ih hrest (fun j hj => hstep j (List.mem_cons_of_mem i hj)) (hstep i List.mem_cons_self s u he hs)

/-- No command changes the parameters (rule R6). -/
theorem exec_cfg {i : Instr} {s t : State} (h : exec i s = .next t) : t.cfg = s.cfg := by
  rcases exec_responds h with ⟨_, -, hcfg, -⟩ | ⟨-, hcfg, -⟩ <;> exact hcfg

theorem Performs.cfg_eq {is : List Instr} {s t : State} (h : Performs is s t) : t.cfg = s.cfg :=
  h.keeps (P := fun u => u.cfg = s.cfg) (fun _ _ _ _ he hs => (exec_cfg he).trans hs) rfl

/-! ## The run at a position of the writer and of the reader -/

/-- The bits from position `p` upward are `run`. -/
def Memory.HasRun (m : Memory) (p : Nat) (run : Bits) : Prop :=
  ∀ j, j < run.length → Memory.bit m (p + j) = bitAt run j

/-- The writer stands at or beyond a written `run` that begins at position `p`. -/
def State.WriterHas (s : State) (p : Nat) (run : Bits) : Prop := p + run.length ≤ s.wpos ∧ s.wbuf.HasRun p run

/-- The reader's input reaches over a `run` that begins at position `p`. -/
def State.ReaderHas (s : State) (p : Nat) (run : Bits) : Prop := p + run.length ≤ 8 * s.rlen ∧ s.rbuf.HasRun p run

section Runs

variable {i : Instr} {s t u v r : State} {p : Nat} {run : Bits}

/-- A run that has been appended stands at the old position. -/
theorem writerHas_appended (s : State) (run : Bits) : ((s.appended run).answer .ok 0).WriterHas s.wpos run := by
  refine ⟨Nat.le_refl _, fun j hj => ?_⟩
  show Memory.bit (Memory.writeRun s.wbuf s.wpos run) (s.wpos + j) = bitAt run j
  rw [Memory.bit_writeRun, if_pos (by omega), Nat.add_sub_cancel_left, bitAt]

/-- The write commands and `WR.PAD` are WR commands other than `WR.INIT`. -/
theorem unit_eq_two_of_appends (hi : i.appends = true) : i.unit = 2 ∧ ∀ a, i ≠ .wrInit a := by
  cases i
  case wrBit | wrU8 | wrU16 | wrU32 | wrU64 | wrV | wrPad => exact ⟨rfl, nofun⟩
  all_goals exact absurd hi Bool.false_ne_true

/-- A further write keeps what is written, because the writer only appends (rule R144). -/
theorem State.WriterHas.exec (h : s.WriterHas p run) (hi : i.appends = true) (he : Machine.exec i s = .next t) :
    t.WriterHas p run := by
  obtain ⟨hend, hbits⟩ := h
  obtain ⟨hu, hinit⟩ := unit_eq_two_of_appends hi
  obtain ⟨-, hpos, hbelow⟩ := writerOnlyAppends i s t hu hinit he
  exact ⟨Nat.le_trans hend hpos, fun j hj => (hbelow _ (by omega)).trans (hbits j hj)⟩

/-- `RD.LDW` puts what the writer holds at the same position of the reader (rule R153). -/
theorem State.WriterHas.rdLdw (h : s.WriterHas p run) (he : Machine.exec .rdLdw s = .next t) : t.ReaderHas p run := by
  obtain ⟨hend, hbits⟩ := h
  have hcopy : ((s.performed .rdLdw).answer .ok 0).ReaderHas p run := by
    refine ⟨Nat.le_trans hend (le_ceil8 _), fun j hj => ?_⟩
    have hin : (p + j) / 8 < ceil8 s.wpos := by unfold ceil8; omega
    rw [← hbits j hj]
    show Memory.bit (Memory.take s.wbuf (ceil8 s.wpos)) (p + j) = Memory.bit s.wbuf (p + j)
    rw [Memory.bit, Memory.read_take, if_pos hin, Memory.bit]
  exact of_exec_next (P := fun t => t.ReaderHas p run) he nofun fun _ => hcopy

/-- A read moves the position and leaves the input (rule R150). -/
theorem performed_sameInput (s : State) (hi : i.consumes = true) :
    (s.performed i).rlen = s.rlen ∧ (s.performed i).rbuf = s.rbuf := by
  cases i
  case rdBit | rdU8 | rdU16 | rdI16 | rdU32 | rdI32 | rdU64 | rdV | rdPad => exact ⟨rfl, rfl⟩
  all_goals exact absurd hi Bool.false_ne_true

theorem State.ReaderHas.exec (h : s.ReaderHas p run) (hi : i.consumes = true) (he : Machine.exec i s = .next t) :
    t.ReaderHas p run := by
  refine of_exec_next (P := fun t => t.ReaderHas p run) he (fun _ _ => h) fun _ => ?_
  obtain ⟨hlen, hbuf⟩ := performed_sameInput s hi
  show _ ≤ 8 * (s.performed i).rlen ∧ (s.performed i).rbuf.HasRun p run
  rw [hlen, hbuf]
  exact h

/-- The reader that stands at the run's position reads the run. -/
theorem State.ReaderHas.run_eq (h : s.ReaderHas s.rpos run) : s.run run.length = run := by
  obtain ⟨-, hbits⟩ := h
  refine bits_ext (s.length_run _) fun j hj => ?_
  rw [State.length_run] at hj
  rw [← hbits j hj, bitAt, s.getD_run hj]

/-! ## What is written is read back (rule R166) -/

/-- What stands in the writer is in the reader after any further writes, `RD.LDW` and any reads. -/
theorem State.WriterHas.transfer {writes reads : List Instr} (h : t.WriterHas p run)
    (hwrites : ∀ i ∈ writes, i.appends = true) (hu : Performs writes t u) (hv : Machine.exec .rdLdw u = .next v)
    (hreads : ∀ i ∈ reads, i.consumes = true) (hr : Performs reads v r) : r.ReaderHas p run := by
  have hwritten : u.WriterHas p run :=
    hu.keeps (P := fun s' => s'.WriterHas p run) (fun i hi _ _ he hs => hs.exec (hwrites i hi) he) h
  exact hr.keeps (P := fun s' => s'.ReaderHas p run) (fun i hi _ _ he hs => hs.exec (hreads i hi) he)
    (hwritten.rdLdw hv)

/-- A run that fits, written, transferred and reached again: the reader has it next, and it ends where the writer
stood. -/
theorem written_run_is_next {writes reads : List Instr} (hw : exec i s = writeBits run s)
    (hfit : s.wpos + run.length ≤ 8 * s.wcap) (ht : exec i s = .next t) (hwrites : ∀ i ∈ writes, i.appends = true)
    (hu : Performs writes t u) (hv : exec .rdLdw u = .next v) (hreads : ∀ i ∈ reads, i.consumes = true)
    (hr : Performs reads v r) (hpos : r.rpos = s.wpos) :
    r.rpos + run.length ≤ 8 * r.rlen ∧ r.run run.length = run ∧ r.rpos + run.length = t.wpos := by
  cases ht.symm.trans (hw.trans (writeBits_fits hfit))
  have hhas := (writerHas_appended s run).transfer hwrites hu hv hreads hr
  rw [← hpos] at hhas
  exact ⟨hhas.1, hhas.run_eq, by rw [hpos]; rfl⟩

end Runs

/-- The low bits of a register as a number, zero-extended from their width. -/
theorem zext_ofBits_lowBits {n : Nat} (hn : n ≤ 64) (w : Word) :
    zext (ofBits (lowBits n w)) = (w.setWidth n).setWidth 64 := by
  apply BitVec.eq_of_getLsbD_eq
  intro j hj
  rw [getLsbD_zext_ofBits _ _ (by rwa [length_lowBits]), getD_lowBits, BitVec.getLsbD_setWidth, BitVec.getLsbD_setWidth,
    decide_eq_true hj, Bool.true_and]
  by_cases hjn : j < n <;> simp [hjn]

/-- The low bits of a register as a number of their width. -/
theorem ofNat_ofBits_lowBits (n : Nat) (w : Word) : BitVec.ofNat n (ofBits (lowBits n w)) = w.setWidth n := by
  apply BitVec.eq_of_getLsbD_eq
  intro j hj
  rw [BitVec.getLsbD_ofNat, testBit_ofBits, getD_lowBits, if_pos hj, BitVec.getLsbD_setWidth]

theorem sext_ofBits_lowBits (n : Nat) (w : Word) : sext n (ofBits (lowBits n w)) = (w.setWidth n).signExtend 64 := by
  rw [sext, ofNat_ofBits_lowBits]

/-- A write of the low `n` bits of `w` and a read of `n` bits, extended by `f`: the read gives `f` of those bits. -/
theorem integer_roundTrip (f : Bits → Word) {n : Nat} {iWrite iRead : Instr} {w x : Word} {d : XReg}
    {s t u v r : State} {writes reads : List Instr} (hw : exec iWrite s = writeBits (lowBits n w) s)
    (hread : exec iRead r = readBits n (fun run s' => s'.setX d (f run)) r) (hx : f (lowBits n w) = x)
    (hfit : s.wpos + n ≤ 8 * s.wcap) (ht : exec iWrite s = .next t) (hwrites : ∀ i ∈ writes, i.appends = true)
    (hu : Performs writes t u) (hv : exec .rdLdw u = .next v) (hreads : ∀ i ∈ reads, i.consumes = true)
    (hr : Performs reads v r) (hpos : r.rpos = s.wpos) :
    Completes iRead r fun z => z.getX d = x ∧ z.rpos = t.wpos := by
  have hnext := written_run_is_next hw (by rwa [length_lowBits]) ht hwrites hu hv hreads hr hpos
  rw [length_lowBits] at hnext
  obtain ⟨hthere, hrun, hend⟩ := hnext
  refine (completes_readBits_setX hread hthere).imp ?_
  rintro z ⟨hval, ⟨hzpos, -⟩, -⟩
  exact ⟨by rw [hval, hrun, hx], hzpos.trans hend⟩

/-- Settles O46: each pair of commands writes and reads the same number of bits; the reads differ in the extension. -/
theorem integersRoundTrip : Obligations.IntegersRoundTrip := by
  intro a d s t u v r writes reads
  simp only [List.forall_mem_cons]
  have hwhole : zext (ofBits (lowBits 64 (s.getX a))) = s.getX a := by
    rw [zext_ofBits_lowBits (Nat.le_refl 64), BitVec.setWidth_eq, BitVec.setWidth_eq]
  exact ⟨integer_roundTrip (zext ∘ ofBits) rfl rfl (zext_ofBits_lowBits (by decide) _),
    integer_roundTrip (zext ∘ ofBits) rfl rfl (zext_ofBits_lowBits (by decide) _),
    integer_roundTrip (zext ∘ ofBits) rfl rfl (zext_ofBits_lowBits (by decide) _),
    integer_roundTrip (sext 16 ∘ ofBits) rfl rfl (sext_ofBits_lowBits 16 _),
    integer_roundTrip (zext ∘ ofBits) rfl rfl (zext_ofBits_lowBits (by decide) _),
    integer_roundTrip (sext 32 ∘ ofBits) rfl rfl (sext_ofBits_lowBits 32 _),
    integer_roundTrip (zext ∘ ofBits) rfl rfl hwhole, List.forall_mem_nil _⟩

/-- Settles O47: the parameters have not changed on the way, so the capacity is within `VMAX` at the read too. -/
theorem vectorsRoundTrip : Obligations.VectorsRoundTrip := by
  intro a d s t u v r writes reads hcap hfit ht hwrites hu hv hreads hr hpos
  obtain ⟨hthere, hrun, hend⟩ := written_run_is_next rfl hfit ht hwrites hu hv hreads hr hpos
  have hcfg : r.cfg = s.cfg :=
    calc r.cfg = v.cfg := hr.cfg_eq
      _ = u.cfg := exec_cfg hv
      _ = t.cfg := hu.cfg_eq
      _ = s.cfg := exec_cfg ht
  refine (completes_readBits_setV (exec_rdV_of_le (by rwa [hcfg])) hthere).imp ?_
  rintro z ⟨hval, ⟨hzpos, -⟩, -⟩
  exact ⟨hval.trans hrun, hzpos.trans hend⟩

end Sys2Proof.Machine
end

section
/-! Spec file 44_seqno.md, the SEQ commands (rules R170 to R176): what each one writes and leaves unchanged, the source's
testable properties, and what kind of order the circular comparison is. -/

namespace Sys2Proof.Machine

open Sys2Proof

/-! ## Circular distances (rules R10 and R170) -/

theorem distance_eq (v w : Word) : distance v w = (seqOf v - seqOf w).toNat := by
  rw [toNat_seq_sub, toNat_seqOf, toNat_seqOf, distance]

/-- The distances of a pair in its two orders add up to 0 modulo 65536. -/
theorem toNat_seq_sub_comm (p q : SeqNo) : (q - p).toNat = (65536 - (p - q).toNat) % 65536 := by
  rw [← neg_sub, BitVec.toNat_neg]

theorem toNat_seq_sub_eq_zero (p q : SeqNo) : (p - q).toNat = 0 ↔ p = q := by
  rw [← BitVec.toNat_inj, toNat_seq_sub]
  have := p.isLt; have := q.isLt
  omega

/-- The antipode of a number is the one at distance 32768. -/
theorem toNat_seq_sub_eq_antipode (p q : SeqNo) : (p - q).toNat = 32768 ↔ p = q + 32768 := by
  rw [← BitVec.toNat_inj, toNat_seq_sub, BitVec.toNat_add, show (32768 : SeqNo).toNat = 32768 from rfl]
  have := p.isLt; have := q.isLt
  omega

theorem sdiff16_of_lt {p q : SeqNo} (h : (p - q).toNat < 32768) : sdiff16 p q = (p - q).toNat := if_pos h

theorem sdiff16_of_ge {p q : SeqNo} (h : 32768 ≤ (p - q).toNat) : sdiff16 p q = (p - q).toNat - 65536 :=
  if_neg (Nat.not_lt.2 h)

/-! ## Results as register contents (rules R171 to R174) -/

/-- A sequence number zero-extended into a register (rule R9). -/
theorem toNat_zext_seq (p : SeqNo) : (zext p.toNat).toNat = p.toNat :=
  toNat_zext _ (Nat.lt_trans p.isLt (by decide))

theorem seqOf_zext_seq (p : SeqNo) : seqOf (zext p.toNat) = p := by
  rw [← BitVec.toNat_inj, toNat_seqOf, toNat_zext_seq, Nat.mod_eq_of_lt p.isLt]

/-- The sign extension of the circular difference loses nothing (rule R172). -/
theorem toInt_sextInt_sdiff16 (p q : SeqNo) : (sextInt (sdiff16 p q)).toInt = sdiff16 p q := by
  obtain ⟨hlo, hhi⟩ := sdiff16_range p q
  rw [sextInt, BitVec.toInt_ofInt, Int.bmod_eq_of_le (by omega) (by omega)]

/-- The verdict by the circular distance (rule R171). -/
theorem sextInt_seqVerdict (p q : SeqNo) : sextInt (seqVerdict p q) =
    if (p - q).toNat = 0 then 0#64 else if (p - q).toNat < 32768 then 1#64 else 0xFFFFFFFFFFFFFFFF#64 := by
  rw [seqVerdict]
  simp only [sdiff16_eq_zero, sdiff16_pos, toNat_seq_sub_eq_zero]
  by_cases heq : p = q
  · rw [if_pos heq, if_pos heq]; rfl
  · have hpos : 1 ≤ (p - q).toNat := Nat.pos_of_ne_zero (mt (toNat_seq_sub_eq_zero p q).1 heq)
    rw [if_neg heq, if_neg heq]
    by_cases hlt : (p - q).toNat < 32768
    · rw [if_pos ⟨hpos, hlt⟩, if_pos hlt]; rfl
    · rw [if_neg (mt And.right hlt), if_neg hlt]; rfl

theorem sextInt_seqVerdict_eq_zero (p q : SeqNo) : sextInt (seqVerdict p q) = 0 ↔ p = q := by
  rw [sextInt_seqVerdict, ← toNat_seq_sub_eq_zero]
  split
  case isTrue h => exact iff_of_true rfl h
  case isFalse h => exact iff_of_false (by split <;> decide) h

theorem sextInt_seqVerdict_eq_one (p q : SeqNo) :
    sextInt (seqVerdict p q) = 1 ↔ 1 ≤ (p - q).toNat ∧ (p - q).toNat < 32768 := by
  rw [sextInt_seqVerdict]
  split
  case isTrue h => exact iff_of_false (by decide) (by omega)
  case isFalse h =>
    split
    case isTrue hlt => exact iff_of_true rfl ⟨Nat.pos_of_ne_zero h, hlt⟩
    case isFalse hge => exact iff_of_false (by decide) (mt And.right hge)

/-- From the antipode on the verdict is -1. -/
theorem sextInt_seqVerdict_of_ge {p q : SeqNo} (h : 32768 ≤ (p - q).toNat) :
    sextInt (seqVerdict p q) = 0xFFFFFFFFFFFFFFFF#64 := by
  rw [sextInt_seqVerdict, if_neg (by omega), if_neg (by omega)]

/-! ## What each command does (rules R171 to R174) -/

section Commands

variable (a b c : XReg) (s : State)

theorem completes_seqCmp : Completes (.seqCmp a b c) s fun t =>
    t.getX a = sextInt (seqVerdict (seqOf (s.getX b)) (seqOf (s.getX c))) ∧ OnlyX a s t :=
  completes_setX rfl

theorem completes_seqDif : Completes (.seqDif a b c) s fun t =>
    (t.getX a).toInt = sdiff16 (seqOf (s.getX b)) (seqOf (s.getX c)) ∧ OnlyX a s t :=
  (completes_setX rfl).imp fun _ ⟨hval, hframe⟩ =>
    ⟨(congrArg BitVec.toInt hval).trans (toInt_sextInt_sdiff16 _ _), hframe⟩

end Commands

/-- Settles O48. -/
theorem seqCmpGivesTheVerdict : Obligations.SeqCmpGivesTheVerdict := by
  intro a b c s
  refine ⟨encodedAs_of_encode rfl rfl, (completes_seqCmp a b c s).imp fun t ⟨hval, hframe⟩ => ⟨?_, hframe⟩⟩
  rw [hval, sextInt_seqVerdict, distance_eq]

/-- Settles O49. -/
theorem seqDifGivesTheSignedDifference : Obligations.SeqDifGivesTheSignedDifference := by
  intro a b c s
  refine ⟨encodedAs_of_encode rfl rfl, (completes_seqDif a b c s).imp fun t ⟨hval, hframe⟩ => ⟨?_, hframe⟩⟩
  rw [hval, sdiff16_def, distance_eq]

/-- Settles O50: the sum and the difference of two 16-bit numbers are already taken modulo 65536. -/
theorem seqAddSubAreModulo65536 : Obligations.SeqAddSubAreModulo65536 := by
  intro a b c s
  refine ⟨encodedAs_of_encode rfl rfl, encodedAs_of_encode rfl rfl,
    (completes_setX rfl).imp fun t ⟨hval, hframe⟩ => ⟨?add, hframe⟩,
    (completes_setX rfl).imp fun t ⟨hval, hframe⟩ => ⟨?sub, hframe⟩⟩
  case add => rw [hval, toNat_zext_seq, BitVec.toNat_add, toNat_seqOf, toNat_seqOf]
  case sub =>
    rw [hval, toNat_zext_seq, toNat_seq_sub, toNat_seqOf, toNat_seqOf]
    omega

/-! ## The testable properties (rule R176) -/

/-- A number `p` put into `x` and compared with `xa` into a third register. Both are still there then, so the difference
and the reverse comparison that may follow are about `p` and `xa` too. -/
theorem seqCmp_after_setX {i : Instr} {s : State} {xa x y : XReg} {p : SeqNo}
    (he : exec i s = done (s.setX x (zext p.toNat))) (hax : xa ≠ x) (hay : xa ≠ y) (hxy : x ≠ y) (z : XReg) :
    ∃ t₁ t₂, exec i s = .next t₁ ∧ exec (.seqCmp y x xa) t₁ = .next t₂ ∧
      t₂.getX y = sextInt (seqVerdict p (seqOf (s.getX xa))) ∧
      (Completes (.seqDif z x xa) t₂ fun t => (t.getX z).toInt = sdiff16 p (seqOf (s.getX xa))) ∧
      (Completes (.seqCmp z xa x) t₂ fun t => t.getX z = sextInt (seqVerdict (seqOf (s.getX xa)) p)) := by
  obtain ⟨t₁, he₁, -, hx₁, hframe₁, -⟩ := completes_setX he
  obtain ⟨t₂, he₂, -, hy, hframe₂, -⟩ := completes_seqCmp y x xa t₁
  have ha₁ : t₁.getX xa = s.getX xa := hframe₁ xa hax
  have hx₂ : t₂.getX x = zext p.toNat := (hframe₂ x hxy).trans hx₁
  have ha₂ : t₂.getX xa = s.getX xa := (hframe₂ xa hay).trans ha₁
  refine ⟨t₁, t₂, he₁, he₂, ?verdict, (completes_seqDif z x xa t₂).imp fun t ⟨hz, _⟩ => ?difference,
    (completes_seqCmp z xa x t₂).imp fun t ⟨hz, _⟩ => ?reverse⟩
  case verdict => rw [hy, hx₁, ha₁, seqOf_zext_seq]
  case difference => rw [hz, hx₂, ha₂, seqOf_zext_seq]
  case reverse => rw [hz, hx₂, ha₂, seqOf_zext_seq]

/-- Settles O51: `a + d` is at the distance `d` from `a`, and `a - d` at the distance `65536 - d`. -/
theorem seqTestableProperties : Obligations.SeqTestableProperties := by
  intro s xa xd x y z d hax hay hxy hd
  have hseq : (seqOf (s.getX xd)).toNat = d := (toNat_seqOf _).trans hd
  have hadd : (seqOf (s.getX xa) + seqOf (s.getX xd) - seqOf (s.getX xa)).toNat = d := by
    rw [add_sub_cancel_left, hseq]
  have hsub : (seqOf (s.getX xa) - seqOf (s.getX xd) - seqOf (s.getX xa)).toNat = (65536 - d) % 65536 := by
    rw [sub_sub_cancel_left, BitVec.toNat_neg, hseq]
  refine ⟨?self, fun hpos hle => ⟨?ahead, ?behind⟩, ?wrap, ?zero, ?antipode⟩
  case self =>
    exact (completes_seqCmp z xa xa s).imp fun t ⟨hz, _⟩ => hz.trans ((sextInt_seqVerdict_eq_zero _ _).2 rfl)
  case ahead =>
    obtain ⟨t₁, t₂, he₁, he₂, hy, hdif, -⟩ := seqCmp_after_setX (i := .seqAdd x xa xd) rfl hax hay hxy z
    refine ⟨t₁, t₂, he₁, he₂, hy.trans ((sextInt_seqVerdict_eq_one _ _).2 (by omega)), hdif.imp fun t hz => ?_⟩
    rw [hz, sdiff16_of_lt (by omega), hadd]
  case behind =>
    obtain ⟨t₁, t₂, he₁, he₂, hy, hdif, -⟩ := seqCmp_after_setX (i := .seqSub x xa xd) rfl hax hay hxy z
    refine ⟨t₁, t₂, he₁, he₂, hy.trans (sextInt_seqVerdict_of_ge (by omega)), hdif.imp fun t hz => ?_⟩
    rw [hz, sdiff16_of_ge (by omega)]
    omega
  case wrap =>
    intro ha hmax
    refine (completes_seqCmp z xa xd s).imp fun t ⟨hz, _⟩ => hz.trans ((sextInt_seqVerdict_eq_one _ _).2 ?_)
    rw [toNat_seq_sub, toNat_seqOf, ha, hseq, hmax]
    decide
  case zero =>
    obtain ⟨t, he, -, hz, -⟩ := completes_seqCmp z xa xd s
    refine ⟨t, he, ?_⟩
    rw [hz, sextInt_seqVerdict_eq_zero, ← BitVec.toNat_inj, toNat_seqOf, hseq]
  case antipode =>
    intro hhalf
    obtain ⟨t₁, t₂, he₁, he₂, hy, -, hreverse⟩ := seqCmp_after_setX (i := .seqAdd x xa xd) rfl hax hay hxy z
    refine ⟨t₁, t₂, he₁, he₂, hy.trans (sextInt_seqVerdict_of_ge (by omega)),
      hreverse.imp fun t hz => hz.trans (sextInt_seqVerdict_of_ge ?_)⟩
    rw [toNat_seq_sub_comm]
    omega

/-! ## The circular order (rule R175) -/

/-- At the antipode both orders compare as older, with the difference -32768. -/
theorem completes_at_antipode (a b c : XReg) {s : State} (h : distance (s.getX b) (s.getX c) = 32768) :
    (Completes (.seqCmp a b c) s fun t => t.getX a = 0xFFFFFFFFFFFFFFFF#64) ∧
    (Completes (.seqDif a b c) s fun t => (t.getX a).toInt = -32768) := by
  rw [distance_eq] at h
  refine ⟨(completes_seqCmp a b c s).imp fun t ⟨ha, _⟩ => ha.trans (sextInt_seqVerdict_of_ge h.ge),
    (completes_seqDif a b c s).imp fun t ⟨ha, _⟩ => ?_⟩
  rw [ha, sdiff16_of_ge h.ge, h]
  rfl

theorem distance_antipode_comm {v w : Word} (h : distance v w = 32768) : distance w v = 32768 := by
  rw [distance_eq] at h ⊢
  rw [toNat_seq_sub_comm, h]

/-- A state that holds any two sequence numbers in registers 1 and 2. -/
def State.holding (p q : SeqNo) : State := (State.reset.setX 1 (zext p.toNat)).setX 2 (zext q.toNat)

theorem seqOf_holding_one (p q : SeqNo) : seqOf ((State.holding p q).getX 1) = p := by
  rw [State.holding, State.getX_setX_of_ne _ _ _ _ (by decide), State.getX_setX_self, seqOf_zext_seq]

theorem seqOf_holding_two (p q : SeqNo) : seqOf ((State.holding p q).getX 2) = q := by
  rw [State.holding, State.getX_setX_self, seqOf_zext_seq]

/-- One number is newer than another when it is ahead by less than half the range. -/
theorem newer_iff (p q : SeqNo) : Newer p q ↔ 1 ≤ (p - q).toNat ∧ (p - q).toNat < 32768 := by
  rw [← sextInt_seqVerdict_eq_one]
  constructor
  · intro h
    obtain ⟨t, he, -, ht⟩ := h 0 1 2 (State.holding p q) (seqOf_holding_one p q) (seqOf_holding_two p q)
    obtain ⟨t', he', -, hval, -⟩ := completes_seqCmp 0 1 2 (State.holding p q)
    obtain rfl : t = t' := by injection he.symm.trans he'
    rw [seqOf_holding_one, seqOf_holding_two] at hval
    exact hval.symm.trans ht
  · rintro h a b c s rfl rfl
    exact (completes_seqCmp a b c s).imp fun t ⟨ht, _⟩ => ht.trans h

/-- The distance of two numbers of a window is that of their places in it. -/
theorem toNat_window_sub (base : SeqNo) {m n : Nat} (hmn : m < n) (hn : n < 32768) :
    ((base + BitVec.ofNat 16 n) - (base + BitVec.ofNat 16 m)).toNat = n - m := by
  rw [toNat_seq_sub, BitVec.toNat_add, BitVec.toNat_add, BitVec.toNat_ofNat, BitVec.toNat_ofNat]
  have := base.isLt
  omega

/-- Settles O52: each claim about the order is one about the distance, by `newer_iff`. -/
theorem circularOrderAndItsAntipode : Obligations.CircularOrderAndItsAntipode := by
  refine ⟨fun a b c s h => ?antipodes, fun p => ?irreflexive, fun p q => ?antisymmetric, fun p q hne hanti => ?total,
    fun p => ?undecided, ?notTransitive, fun base m n hmn hn => ?window⟩
  case antipodes =>
    obtain ⟨hcmp, hdif⟩ := completes_at_antipode a b c h
    obtain ⟨hcmp', hdif'⟩ := completes_at_antipode a c b (distance_antipode_comm h)
    exact ⟨hcmp, hcmp', hdif, hdif'⟩
  case irreflexive =>
    rw [newer_iff, (toNat_seq_sub_eq_zero p p).2 rfl]
    omega
  case antisymmetric =>
    rw [newer_iff, newer_iff, toNat_seq_sub_comm p q]
    omega
  case total =>
    rw [Ne, ← toNat_seq_sub_eq_zero] at hne
    rw [Ne, ← toNat_seq_sub_eq_antipode] at hanti
    rw [newer_iff, newer_iff, toNat_seq_sub_comm p q]
    have := (p - q).isLt
    omega
  case undecided =>
    rw [newer_iff, newer_iff, toNat_seq_sub_comm (p + 32768) p, (toNat_seq_sub_eq_antipode (p + 32768) p).2 rfl]
    decide
  case notTransitive =>
    simp only [newer_iff]
    decide
  case window =>
    rw [newer_iff, toNat_window_sub base hmn hn]
    omega

end Sys2Proof.Machine
end

section
/-! Spec file 45_ackwindow.md, the ACK commands (rules R180 to R186): what each one writes and leaves unchanged, and that
the tracker is the set of the received numbers at most `AW` below the mark. -/

namespace Sys2Proof.Machine

open Sys2Proof

/-! ## `ACK.INIT`, `ACK.HWM` and `ACK.WIN` (rules R180, R182 and R183) -/

/-- Settles O53. -/
theorem ackInitConstructsTheTracker : Obligations.AckInitConstructsTheTracker := by
  intro a imm s
  refine ⟨fun himm => encodedAs_of_encode rfl (decide_eq_true himm), fun hle => ?completes,
    fun hlt => raises_of_eq (if_pos hlt)⟩
  case completes =>
    exact completes_of_eq (u := s.performed (.ackInit a imm)) (if_neg (Nat.not_lt.2 hle)) rfl rfl rfl rfl
      ⟨length_zeros imm, bitAt_zeros imm, toNat_seqOf _, .refl s, .refl s, .refl s, .refl s, rfl⟩

/-- Settles O55: a sequence number is its own value in 64 bits, and the copy has the capacity of the window. -/
theorem ackHwmAndWinReadThePair : Obligations.AckHwmAndWinReadThePair := by
  refine ⟨fun a s => ⟨encodedAs_of_encode rfl rfl, ?hwm⟩, fun a s => ⟨encodedAs_of_encode rfl rfl, ?win⟩⟩
  case hwm =>
    exact (completes_setX rfl).imp fun t ⟨hval, hframe⟩ => ⟨by rw [hval, toNat_zext_seq], hframe⟩
  case win =>
    exact (completes_setV rfl).imp fun t ⟨hbits, hframe⟩ => ⟨by rw [State.getVN, hbits, State.aw], hbits, hframe⟩

/-! ## The window (rule R181) -/

theorem advanceWindow_of_lt {win : Bits} {n : Nat} (h : win.length < n) : advanceWindow win n = zeros win.length :=
  if_pos h

/-- Within the width, the bit of the old mark is set on the shifted window. -/
theorem bitAt_advanceWindow {win : Bits} {n j : Nat} (hn : 1 ≤ n) (hle : n ≤ win.length) (hj : j < win.length) :
    bitAt (advanceWindow win n) j = if j = n - 1 then true else if n ≤ j then bitAt win (j - n) else false := by
  have hmark : n - 1 < (shl win n).length := by rw [length_shl]; omega
  rw [advanceWindow, if_neg (Nat.not_lt.2 hle), bitAt_setBitAt _ _ _ _ hmark, bitAt_shl]
  simp only [hj, true_and]

theorem markOlder_of_lt {win : Bits} {d : Nat} (h : win.length < d) : markOlder win d = win :=
  if_neg (Nat.not_le.2 h)

theorem bitAt_markOlder {win : Bits} {d : Nat} (hd : 1 ≤ d) (hle : d ≤ win.length) (j : Nat) :
    bitAt (markOlder win d) j = if j = d - 1 then true else bitAt win j := by
  rw [markOlder, if_pos hle, bitAt_setBitAt _ _ _ _ (by omega)]

/-! ## What `ACK.RX` does to the tracker, by the distance from the mark up to the number (rule R181) -/

section Acked

variable {s : State} {p : SeqNo}

theorem acked_mark (h : p = s.ahwm) : s.acked p = s := if_pos ((sdiff16_eq_zero _ _).2 h)

theorem acked_newer (hpos : 1 ≤ (p - s.ahwm).toNat) (hlt : (p - s.ahwm).toNat < 32768) :
    s.acked p = { s with awin := advanceWindow s.awin (p - s.ahwm).toNat, ahwm := p } := by
  have hdiff : 0 < sdiff16 p s.ahwm := (sdiff16_pos _ _).2 ⟨hpos, hlt⟩
  rw [State.acked, if_neg hdiff.ne', if_pos hdiff, sdiff16_of_lt hlt, Int.toNat_natCast]

theorem acked_older (hge : 32768 ≤ (p - s.ahwm).toNat) :
    s.acked p = { s with awin := markOlder s.awin (65536 - (p - s.ahwm).toNat) } := by
  have hu : (p - s.ahwm).toNat < 65536 := (p - s.ahwm).isLt
  have hdiff : sdiff16 p s.ahwm < 0 := by rw [sdiff16_of_ge hge]; omega
  have hbelow : (-sdiff16 p s.ahwm).toNat = 65536 - (p - s.ahwm).toNat := by rw [sdiff16_of_ge hge]; omega
  rw [State.acked, if_neg hdiff.ne, if_neg hdiff.not_gt, hbelow]

/-- A number more than `AW` below the mark is ignored. -/
theorem acked_tooOld (hge : 32768 ≤ (p - s.ahwm).toNat) (hfar : s.aw < 65536 - (p - s.ahwm).toNat) :
    s.acked p = s := by
  rw [acked_older hge, markOlder_of_lt hfar]

/-- The mark is the number fed when it is newer, or the mark itself. -/
theorem ahwm_acked_of_lt (hlt : (p - s.ahwm).toNat < 32768) : (s.acked p).ahwm = p := by
  rcases Nat.eq_zero_or_pos (p - s.ahwm).toNat with hzero | hpos
  · have heq : p = s.ahwm := (toNat_seq_sub_eq_zero _ _).1 hzero
    rw [acked_mark heq, heq]
  · rw [acked_newer hpos hlt]

theorem ahwm_acked_of_ge (hge : 32768 ≤ (p - s.ahwm).toNat) : (s.acked p).ahwm = s.ahwm := by
  rw [acked_older hge]

theorem onlyTracker_acked (s : State) (p : SeqNo) : OnlyTracker s ((s.acked p).answer .ok 0) := by
  rw [acked_rest]
  exact ⟨.refl s, .refl s, .refl s, .refl s, rfl⟩

theorem exec_ackRx (a : XReg) (s : State) : exec (.ackRx a) s = .next ((s.acked (seqOf (s.getX a))).answer .ok 0) :=
  (exec_of_not_beyond (i := .ackRx a) id).2 rfl

/-- `ACK.RX` always completes. -/
theorem completes_ackRx {a : XReg} {P : State → Prop} (hP : P ((s.acked (seqOf (s.getX a))).answer .ok 0)) :
    Completes (.ackRx a) s P :=
  ⟨_, exec_ackRx a s, responds_performed (.ackRx a) s, hP⟩

end Acked

/-- Settles O54: each case by the state that `ACK.RX` leaves in it. -/
theorem ackRxMovesTheWindow : Obligations.AckRxMovesTheWindow := by
  intro a s
  rw [← toNat_seqOf, ← toNat_seq_sub]
  refine ⟨encodedAs_of_encode rfl rfl, completes_ackRx ⟨length_acked s _, onlyTracker_acked s _, fun hu => ?mark,
    fun hpos hle => ?newer, fun hge => ⟨ahwm_acked_of_ge hge, fun hin j _ => ?older, fun hout => ?tooOld⟩⟩⟩
  case mark =>
    rw [acked_mark ((toNat_seq_sub_eq_zero _ _).1 hu)]
    exact noChange_answer s .ok 0
  case newer =>
    rw [acked_newer hpos (Nat.lt_succ_of_le hle)]
    refine ⟨rfl, fun hout j => ?_, fun hin j hj => bitAt_advanceWindow hpos hin hj⟩
    exact (congrArg (bitAt · j) (advanceWindow_of_lt hout)).trans (bitAt_zeros _ j)
  case older =>
    rw [acked_older hge]
    have hu := (seqOf (s.getX a) - s.ahwm).isLt
    exact bitAt_markOlder (by omega) hin j
  case tooOld =>
    rw [acked_tooOld hge hout]
    exact noChange_answer s .ok 0

/-! ## Being known received, by the distance from the number up to the mark (rule R184) -/

/-- A number at most 32768 below the mark differs from it by that much, downward. -/
theorem sdiff16_eq_neg {m q : SeqNo} (h : (m - q).toNat ≤ 32768) : sdiff16 q m = -(m - q).toNat := by
  have hcomm := toNat_seq_sub_comm m q
  rw [sdiff16_def]
  split <;> omega

/-- A number more than 32768 below the mark is newer than it. -/
theorem sdiff16_pos_of_gt {m q : SeqNo} (h : 32768 < (m - q).toNat) : 0 < sdiff16 q m := by
  have hcomm := toNat_seq_sub_comm m q
  have hu := (m - q).isLt
  rw [sdiff16_pos]
  omega

theorem knownReceived_iff (m : SeqNo) (win : Bits) (q : SeqNo) : knownReceived m win q = true ↔
    (m - q).toNat = 0 ∨
      (m - q).toNat ≤ 32768 ∧ (m - q).toNat ≤ win.length ∧ bitAt win ((m - q).toNat - 1) = true := by
  rw [knownReceived]
  by_cases hnewer : 32768 < (m - q).toNat
  · have hdiff := sdiff16_pos_of_gt hnewer
    rw [if_neg hdiff.ne', if_pos hdiff]
    exact iff_of_false Bool.false_ne_true (by omega)
  · have hle : (m - q).toNat ≤ 32768 := Nat.le_of_not_lt hnewer
    have hnot : ¬ (0 < -((m - q).toNat : Int)) := by omega
    simp only [sdiff16_eq_neg hle, neg_neg, Int.toNat_natCast, neg_eq_zero, Int.natCast_eq_zero, if_neg hnot, hle,
      true_and]
    by_cases hmark : (m - q).toNat = 0 <;> simp [hmark]

/-- Settles O56. -/
theorem ackIsrxAnswersKnownReceived : Obligations.AckIsrxAnswersKnownReceived := by
  intro a b s
  rw [← toNat_seqOf, ← toNat_seq_sub]
  refine ⟨encodedAs_of_encode rfl rfl, (completes_setX rfl).imp fun t ⟨hval, hframe⟩ => ⟨?_, hframe⟩⟩
  rw [hval, zextBit_eq, if_congr (knownReceived_iff _ _ _) rfl rfl, ite_or]
  rfl

/-! ## The received set (rule R185)

By its distance below the mark a number stands in the run `true :: AWIN`: at 0 the mark itself, which is known, and at
`i + 1` the number of window bit `i`. -/

theorem bitAt_cons_succ (b : Bool) (win : Bits) (j : Nat) : bitAt (b :: win) (j + 1) = bitAt win j := rfl

/-- A number known within the window is at most the width below the mark. -/
theorem le_of_bitAt_cons {win : Bits} {b : Bool} {u : Nat} (h : bitAt (b :: win) u = true) : u ≤ win.length := by
  by_contra hgt
  rw [bitAt_of_length_le _ _ (by rw [List.length_cons]; omega)] at h
  exact Bool.false_ne_true h

@[simp] theorem State.knows_answer (s : State) (st : Status) (d : Word) (q : SeqNo) :
    (s.answer st d).knows q = s.knows q := rfl

theorem knows_iff {s : State} (haw : s.aw ≤ 4095) (q : SeqNo) :
    s.knows q = true ↔ bitAt (true :: s.awin) (s.ahwm - q).toNat = true := by
  rw [State.knows, knownReceived_iff]
  rw [State.aw] at haw
  cases hu : (s.ahwm - q).toNat with
  | zero => exact iff_of_true (.inl rfl) rfl
  | succ j =>
    rw [bitAt_cons_succ, Nat.add_sub_cancel]
    refine ⟨by simp, fun h => .inr ?_⟩
    have hlt : j + 1 ≤ s.awin.length := le_of_bitAt_cons (b := true) h
    exact ⟨by omega, hlt, h⟩

/-- When the mark moves up by `n`, what was known moves to the distance `n` more, as far as the width reaches, and
nothing but the new mark becomes known. -/
theorem bitAt_cons_advanceWindow {win : Bits} {n : Nat} (hn : 1 ≤ n) (u : Nat) :
    bitAt (true :: advanceWindow win n) u = true ↔
      u ≤ win.length ∧ (u = 0 ∨ n ≤ u ∧ bitAt (true :: win) (u - n) = true) := by
  cases u with
  | zero => exact iff_of_true rfl ⟨Nat.zero_le _, .inl rfl⟩
  | succ j =>
    rw [bitAt_cons_succ]
    by_cases hj : j < win.length
    case neg =>
      rw [bitAt_of_length_le _ _ (by rw [length_advanceWindow]; omega)]
      exact iff_of_false Bool.false_ne_true (by omega)
    by_cases hle : n ≤ win.length
    case neg =>
      rw [advanceWindow_of_lt (by omega), bitAt_zeros]
      exact iff_of_false Bool.false_ne_true (by omega)
    rw [bitAt_advanceWindow hn hle hj]
    rcases Nat.lt_trichotomy (j + 1) n with hbetween | rfl | hbelow
    · rw [if_neg (by omega), if_neg (by omega)]
      exact iff_of_false Bool.false_ne_true (by omega)
    · rw [if_pos (Nat.add_sub_cancel j 1).symm, Nat.sub_self]
      exact iff_of_true rfl ⟨hle, .inr ⟨Nat.le_refl _, rfl⟩⟩
    · have hnj : n ≤ j := Nat.le_of_lt_succ hbelow
      rw [if_neg (by omega), if_pos hnj, Nat.succ_sub hnj, bitAt_cons_succ]
      simp [hj, hbelow.le]

/-- Marking the number `d` below the mark makes it known, if the width reaches it, and no other. -/
theorem bitAt_cons_markOlder {win : Bits} {d : Nat} (hd : 1 ≤ d) (u : Nat) :
    bitAt (true :: markOlder win d) u = true ↔ bitAt (true :: win) u = true ∨ u = d ∧ d ≤ win.length := by
  by_cases hle : d ≤ win.length
  case neg => rw [markOlder_of_lt (Nat.lt_of_not_le hle)]; simp [hle]
  cases u with
  | zero => exact iff_of_true rfl (.inl rfl)
  | succ j =>
    rw [bitAt_cons_succ, bitAt_cons_succ, bitAt_markOlder hd hle]
    by_cases hj : j + 1 = d
    · rw [if_pos (by omega)]; exact iff_of_true rfl (.inr ⟨hj, hle⟩)
    · rw [if_neg (by omega)]; simp [hj]

section Received

variable {s : State} {p : SeqNo} (haw : s.aw ≤ 4095) (q : SeqNo)

include haw

/-- With widths below the half range no number within the window wraps around when the mark moves, so distances to the
new and the old mark differ by the move. -/
theorem knows_acked_newer (hpos : 1 ≤ (p - s.ahwm).toNat) (hlt : (p - s.ahwm).toNat < 32768) :
    (s.acked p).knows q = true ↔ (p - q).toNat ≤ s.aw ∧ (q = p ∨ s.knows q = true) := by
  have hbits : (s.acked p).knows q = true ↔
      bitAt (true :: advanceWindow s.awin (p - s.ahwm).toNat) (p - q).toNat = true := by
    rw [knows_iff ((length_acked s p).trans_le haw), acked_newer hpos hlt]
  rw [hbits, bitAt_cons_advanceWindow hpos, knows_iff haw, eq_comm (a := q), ← toNat_seq_sub_eq_zero p q]
  refine and_congr_right fun hu => or_congr_right' fun hne => ?_
  have hold := (s.ahwm - q).isLt
  have hsum : (p - q).toNat = ((p - s.ahwm).toNat + (s.ahwm - q).toNat) % 65536 := by
    rw [← sub_add_sub_cancel p s.ahwm q, BitVec.toNat_add]
  constructor
  · rintro ⟨hge, hbit⟩
    rwa [show (s.ahwm - q).toNat = (p - q).toNat - (p - s.ahwm).toNat by omega]
  · intro hbit
    have hle : (s.ahwm - q).toNat ≤ s.aw := le_of_bitAt_cons hbit
    have hmoved : (p - q).toNat = (p - s.ahwm).toNat + (s.ahwm - q).toNat := by omega
    exact ⟨by omega, by rwa [hmoved, Nat.add_sub_cancel_left]⟩

theorem knows_acked_older (hge : 32768 ≤ (p - s.ahwm).toNat) :
    (s.acked p).knows q = true ↔ (s.ahwm - q).toNat ≤ s.aw ∧ (q = p ∨ s.knows q = true) := by
  have hdist : (s.ahwm - p).toNat = 65536 - (p - s.ahwm).toNat := by
    rw [toNat_seq_sub_comm p s.ahwm]; omega
  have hbits : (s.acked p).knows q = true ↔
      bitAt (true :: markOlder s.awin (s.ahwm - p).toNat) (s.ahwm - q).toNat = true := by
    rw [knows_iff ((length_acked s p).trans_le haw), acked_older hge, hdist]
  have hsame : q = p ↔ (s.ahwm - q).toNat = (s.ahwm - p).toNat := by
    rw [BitVec.toNat_inj, sub_right_inj]
  have hu := (p - s.ahwm).isLt
  rw [hbits, bitAt_cons_markOlder (by omega), knows_iff haw, hsame]
  constructor
  · rintro (hbit | ⟨heq, hle⟩)
    · exact ⟨le_of_bitAt_cons hbit, .inr hbit⟩
    · exact ⟨heq.trans_le hle, .inl heq⟩
  · rintro ⟨hle, heq | hbit⟩
    · exact .inr ⟨heq, heq.symm.trans_le hle⟩
    · exact .inl hbit

theorem knows_acked_mark (h : p = s.ahwm) :
    (s.acked p).knows q = true ↔ (p - q).toNat ≤ s.aw ∧ (q = p ∨ s.knows q = true) := by
  rw [acked_mark h, h, knows_iff haw]
  refine ⟨fun hbit => ⟨le_of_bitAt_cons hbit, .inr hbit⟩, fun ⟨_, hknown⟩ => ?_⟩
  rcases hknown with rfl | hbit
  · rw [(toNat_seq_sub_eq_zero _ _).2 rfl]; rfl
  · exact hbit

end Received

/-- Settles O57, by where the number fed stands: newer than the mark, the mark itself, or older. -/
theorem ackRxTracksTheReceivedSet : Obligations.AckRxTracksTheReceivedSet := by
  intro a s t q haw he
  obtain rfl : (s.acked (seqOf (s.getX a))).answer .ok 0 = t := by injection (exec_ackRx a s).symm.trans he
  generalize seqOf (s.getX a) = p
  rw [State.answer_ahwm, State.knows_answer]
  rcases Nat.lt_or_ge (p - s.ahwm).toNat 32768 with hlt | hge
  · rw [if_pos hlt, ahwm_acked_of_lt hlt]
    refine ⟨rfl, ?_⟩
    rcases Nat.eq_zero_or_pos (p - s.ahwm).toNat with hzero | hpos
    · exact knows_acked_mark haw q ((toNat_seq_sub_eq_zero _ _).1 hzero)
    · exact knows_acked_newer haw q hpos hlt
  · rw [if_neg (Nat.not_lt.2 hge), ahwm_acked_of_ge hge]
    exact ⟨rfl, knows_acked_older haw q hge⟩

end Sys2Proof.Machine
end

section
/-! Spec file 60_exceptions.md (rules R200 to R209): what a fault changes, which command raises which fault, and the idle
step. -/

namespace Sys2Proof.Machine

open Sys2Proof

/-! ## The idle block (rules R206 and R209) -/

/-- Settles O7. -/
theorem idleStepHoldsTheState : Obligations.IdleStepHoldsTheState := fun _ hidle => step_nil hidle

/-! ## Faults are precise (rules R203 and R204) -/

/-- The one response a command gives fixes its status. -/
theorem Responds.status_eq {s t : State} {st st' : Status} {d d' : Word} (h : Responds s t st d)
    (hr : t.responses = s.responses ++ [⟨st', d'⟩]) : st = st' := by
  obtain ⟨hresponses, -⟩ := h
  cases List.append_cancel_left (hresponses.symm.trans hr)
  rfl

/-- A command answers with a fault only by fault entry: a performed command answers OK. -/
theorem faultEntered_of_exec {i : Instr} {s t : State} {k : FaultKind} {dout : Word} (he : exec i s = .next t)
    (hr : t.responses = s.responses ++ [⟨.fault k, dout⟩]) : FaultEntered k s t := by
  rcases exec_next he with ⟨l, _, rfl⟩ | ⟨_, rfl⟩
  · cases (responds_takeFault l s).status_eq hr
    exact faultEntered_takeFault k s
  · cases (responds_performed i s).status_eq hr

/-- Settles O58: a word that spells a command performs it, and one that spells none takes IllegalCommand. -/
theorem faultsArePrecise : Obligations.FaultsArePrecise := by
  refine ⟨fun i s t k dout => faultEntered_of_exec, fun s s' tr later k dout hpending hstep hr => ?_⟩
  change FaultEntered k (s.present tr later) s'
  cases hdec : decode tr.cw with
  | ok i => exact faultEntered_of_exec ((step_ok hpending hdec).symm.trans hstep) hr
  | error why =>
    cases (step_error hpending hdec).symm.trans hstep
    cases (responds_takeFault .illegalCommand (s.present tr later)).status_eq hr
    exact faultEntered_takeFault _ _

/-! ## The fault table (rules R201 and R202) -/

/-- From a state of rule R28 a command answers with the status of the table. -/
theorem exec_responds_statusOf {s : State} (h : s.Inv) (i : Instr) :
    ∃ t dout, exec i s = .next t ∧ Responds s t (statusOf (faultOf i s)) dout := by
  rcases exec_of_wpos_le h.wpos_le i with ⟨k, hk, he⟩ | ⟨hn, he⟩
  · rw [hk]; exact ⟨_, _, he, responds_takeFault k s⟩
  · rw [hn]; exact ⟨_, _, he, responds_performed i s⟩

/-- Settles O59: the decoder refuses a word that matches no row (rule R76). -/
theorem faultTable : Obligations.FaultTable := by
  refine ⟨fun i s h => ?table, fun s t later hpending hnone => ?illegal⟩
  case table =>
    obtain ⟨t, dout, he, hresponses, -⟩ := exec_responds_statusOf h i
    exact ⟨t, dout, he, hresponses⟩
  case illegal =>
    obtain ⟨-, -, -, hrefused⟩ := wordSpellsCommandIffRowMatches
    obtain ⟨why, hdec⟩ := hrefused t.cw hnone
    obtain ⟨hresponses, -⟩ := responds_takeFault .illegalCommand (s.present t later)
    exact ⟨_, _, step_error hpending hdec, hresponses⟩

end Sys2Proof.Machine
end
